-- ==== Sys2Proof/Config.lean ====
section
/-! DEFINITION. The fixed parameters of the block (00_scope.md R5). The spec leaves no parameter to be chosen and no value open,
so there is no free value here; the one configuration input, VERBOSE, is a field of State (entry 3). -/

namespace Sys2Proof.Config

/-- MEM_BYTES (00_scope.md R5). -/
@[simp] abbrev memBytes : Nat := 65536

/-- NUM_REGS (00_scope.md R5). -/
@[simp] abbrev numRegs : Nat := 16

/-- NUM_LINES (00_scope.md R5). -/
@[simp] abbrev numLines : Nat := 8

/-- BLOCK_BYTES (00_scope.md R5). -/
@[simp] abbrev blockBytes : Nat := 8

/-- OVERLAY_BYTES (00_scope.md R5). -/
@[simp] abbrev overlayBytes : Nat := 16

/-- The highest legal base of an overlay (20_memory.md R63). -/
@[simp] abbrev maxOverlayBase : Nat := 0xFFF0

/-- SNAPSHOT_MEM_BYTES (00_scope.md R5). -/
@[simp] abbrev snapshotMemBytes : Nat := 128

/-- The width of a request word (30_encoding.md R85). -/
@[simp] abbrev requestBits : Nat := 21

end Sys2Proof.Config
end

