-- ==== Sys2Proof/Word.lean ====
section
/-! DEFINITION. The block's word types: every width of 00_scope.md R5, R12 as a bit vector, and nothing else. All values are
unsigned (R10). -/

namespace Sys2Proof

/-- A byte of memory or of a cache line (00_scope.md R5, BYTE_BITS). -/
abbrev Byte := BitVec 8

/-- A register value (10_state.md R20). -/
abbrev Word := BitVec 16

/-- A byte address (20_memory.md R50). -/
abbrev Addr := BitVec 16

/-- A register index (30_encoding.md R85, field `reg`). -/
abbrev RegIndex := BitVec 4

/-- A cache tag (40_address_decoder.md R100). -/
abbrev Tag := BitVec 10

/-- A cache line index (40_address_decoder.md R100). -/
abbrev Index := BitVec 3

/-- An offset within a block (40_address_decoder.md R100). -/
abbrev Offset := BitVec 3

/-- The 8 bytes of a block, byte k at offset k (20_memory.md R52). -/
abbrev Block := Vector Byte 8

/-- A request word of the block's port (30_encoding.md R85). -/
abbrev RequestWord := BitVec 21

end Sys2Proof
end

