-- ==== Sys2Proof/Syntax.lean ====
section
/-! DEFINITION. The instruction set: one constructor for each row of spec/opcode_table.json. An instruction is a record
(operation, register, address) (30_encoding.md R80). -/

namespace Sys2Proof

/-- The two operations of a record (30_encoding.md R80). -/
inductive Op where
  | ldr
  | str
  deriving DecidableEq, Repr

/-- A record. Register and address values are unbounded naturals, because a record may reach the block already parsed, with a
value out of range, and the range checks are the block's (30_encoding.md R82, R84); `WellFormed` says that they are in range. -/
inductive Instr where
  /-- LDR r a: load register r from address a (42_load_store.md R161). -/
  | ldr (r a : Nat)
  /-- STR r a: store register r to address a (42_load_store.md R162). -/
  | str (r a : Nat)
  deriving DecidableEq, Repr

/-- The operation of a record. -/
def Instr.op : Instr → Op
  | .ldr _ _ => .ldr
  | .str _ _ => .str

/-- The register value of a record. -/
def Instr.reg : Instr → Nat
  | .ldr r _ => r
  | .str r _ => r

/-- The address value of a record. -/
def Instr.addr : Instr → Nat
  | .ldr _ a => a
  | .str _ a => a

/-- The record with the given operation, register value and address value. -/
def Instr.ofParts (op : Op) (r a : Nat) : Instr :=
  match op with
  | .ldr => .ldr r a
  | .str => .str r a

end Sys2Proof
end

