-- ==== Sys2Proof/WellFormed.lean ====
section
/-! DEFINITION. Which records have the ranges of 30_encoding.md R80: register in [0, 15], address in [0, 65535]. A record that
fails a check has no request word (R85) and raises a fault when it is presented (60_exceptions.md R242, R243). An address at
offset 7 is well-formed (30_encoding.md R88). -/

namespace Sys2Proof

/-- The register value is a register index (30_encoding.md R80, R84). -/
abbrev Instr.RegInRange (i : Instr) : Prop := i.reg < Config.numRegs

/-- The address value is a byte address (30_encoding.md R80, R84). -/
abbrev Instr.AddrInRange (i : Instr) : Prop := i.addr < Config.memBytes

/-- Both fields are in range: the record has a request word. -/
abbrev WellFormed (i : Instr) : Prop := i.RegInRange ∧ i.AddrInRange

end Sys2Proof
end

