-- ==== Sys2Proof/Decode.lean ====
section
/-! DEFINITION. The decoder and encoder of the 21-bit request word (30_encoding.md R85 to R89), and the reader of one line of
record text (R82). Every 21-bit word is a record (R88); a wider number is no request word and is rejected by name (entry 9). -/

namespace Sys2Proof

/-- The bits of a request word that choose the operation (30_encoding.md R87, column mask). -/
def opMask : RequestWord := 0x100000

/-- The masked value of an operation's row (30_encoding.md R87, column match). -/
def opMatch : Op → RequestWord
  | .ldr => 0x000000
  | .str => 0x100000

/-- The operation of a request word: bit 20 and nothing else (30_encoding.md R87). -/
def wordOp (w : RequestWord) : Op := if w &&& opMask = opMatch .str then .str else .ldr

/-- Field `reg`, bits 19:16 (30_encoding.md R85). -/
def wordReg (w : RequestWord) : RegIndex := (w >>> 16).setWidth 4

/-- Field `addr`, bits 15:0 (30_encoding.md R85). -/
def wordAddr (w : RequestWord) : Addr := w.setWidth 16

/-- The record a request word presents. Total: no word is reserved or illegal (30_encoding.md R88). -/
def decode (w : RequestWord) : Instr :=
  Instr.ofParts (wordOp w) (wordReg w).toNat (wordAddr w).toNat

/-- The request word `{op, reg, addr}` of a record (30_encoding.md R85). Meant for well-formed records; of another it takes the
fields' low bits. -/
def encode (i : Instr) : RequestWord :=
  opMatch i.op ||| (((BitVec.ofNat 4 i.reg).setWidth 21) <<< 16) ||| (BitVec.ofNat 16 i.addr).setWidth 21

/-- Why a number is no request word. -/
inductive DecodeError where
  /-- The number has a bit above bit 20, and the port has 21 bits (30_encoding.md R85). Raised by `decodeNumber`; safe. -/
  | widerThanRequestWord
  deriving DecidableEq, Repr

/-- The record a number presents when its bits are those of a request word; a wider number is rejected (entry 9). -/
def decodeNumber (w : Nat) : Except DecodeError Instr :=
  if w < 2 ^ Config.requestBits then .ok (decode (BitVec.ofNat 21 w)) else .error .widerThanRequestWord

/-- The record read from the low `nbits` bits of `w`, in the bit numbering of spec/opcode_table.json, which is that of the
request word (bit 0 the least significant bit of its one word). -/
def decodeTableWord (nbits w : Nat) : Option Instr :=
  match decodeNumber (w % 2 ^ nbits) with
  | .ok i => some i
  | .error _ => none

/-! ### Record text (30_encoding.md R82). The file reader is outside the block (00_scope.md R4); this is the grammar of one line. -/

/-- The whitespace of a record line: space and tab (30_encoding.md R82). -/
def isBlank (c : Char) : Bool := c == ' ' || c == '\t'

/-- The tokens of a line, `cur` holding the characters of the token being read, last first. -/
def tokensFrom (cur : List Char) : List Char → List (List Char)
  | [] => if cur.isEmpty then [] else [cur.reverse]
  | c :: cs =>
    if isBlank c then
      if cur.isEmpty then tokensFrom [] cs else cur.reverse :: tokensFrom [] cs
    else tokensFrom (c :: cur) cs

/-- A line split at runs of whitespace (30_encoding.md R82). -/
def tokens (line : List Char) : List (List Char) := tokensFrom [] line

/-- The value of one hexadecimal digit, either case (30_encoding.md R82). -/
def hexDigit (c : Char) : Option Nat :=
  let n := c.toNat
  if 48 ≤ n ∧ n ≤ 57 then some (n - 48)
  else if 65 ≤ n ∧ n ≤ 70 then some (n - 55)
  else if 97 ≤ n ∧ n ≤ 102 then some (n - 87)
  else none

/-- Hexadecimal digits read after the value `acc`, as an unbounded natural; `none` at any other character. -/
def hexFrom (acc : Nat) : List Char → Option Nat
  | [] => some acc
  | c :: cs =>
    match hexDigit c with
    | some d => hexFrom (acc * 16 + d) cs
    | none => none

/-- One or more hexadecimal digits as an unbounded natural (30_encoding.md R82). -/
def hexNumber : List Char → Option Nat
  | [] => none
  | c :: cs => hexFrom 0 (c :: cs)

/-- The mnemonics, upper case, exactly (30_encoding.md R82). -/
def mnemonicOp (t : List Char) : Option Op :=
  if t = ['L', 'D', 'R'] then some .ldr else if t = ['S', 'T', 'R'] then some .str else none

/-- The record of one line of text; `none` for a malformed line (30_encoding.md R82). The values are not range-checked here
(R84). -/
def parseLine (line : List Char) : Option Instr :=
  match tokens line with
  | [m, r, a] =>
    match mnemonicOp m, hexNumber r, hexNumber a with
    | some op, some rv, some av => some (Instr.ofParts op rv av)
    | _, _, _ => none
  | _ => none

/-- The records of a text: malformed lines are dropped (30_encoding.md R83, 43_arbiter.md R195). -/
def parseLines (lines : List (List Char)) : List Instr := lines.filterMap parseLine

end Sys2Proof
end

