-- ==== Sys2Proof/Machine/State.lean ====
section
/-! DEFINITION. The state of the block as plain data (10_state.md R38): every component the spec gives it, the configuration
input VERBOSE, and what the host supplies (entry 2). The types of outputs, faults and stops, and the state after reset. -/

namespace Sys2Proof.Machine

/-- Raw main memory: (address, byte) pairs in canonical form, addresses strictly rising, no pair equal to what an unlisted
address reads as (10_state.md R24; entry 6). -/
abbrev Memory := List Host.Cell

/-- What an unlisted address reads as: the reset byte of 10_state.md R25. -/
def unlistedByte : Byte := 0x00

/-- A cache line (10_state.md R26). -/
structure Line where
  valid : Bool
  dirty : Bool
  tag : Tag
  data : Block
  deriving DecidableEq, Repr

/-- The run phase (10_state.md R31). -/
inductive Phase where
  | launch
  | running
  | done
  | faulted
  | aborted
  deriving DecidableEq, Repr

/-- The controller's micro-state (10_state.md R33, 41_cache_controller.md R131). -/
inductive Fsm where
  | idle
  | check
  | lookup
  | writeback
  | fill
  | access
  | respond
  deriving DecidableEq, Repr

/-- A trace record (44_trace_snapshot.md R220). -/
structure Trace where
  op : Op
  reg : RegIndex
  addr : Addr
  tag : Tag
  index : Index
  offset : Offset
  hit : Bool
  value : Word
  deriving DecidableEq, Repr

/-- A snapshot: registers, lines and the first 128 bytes of raw memory (44_trace_snapshot.md R224). -/
structure Snapshot where
  x : Vector Word 16
  lines : Vector Line 8
  mem : Vector Byte 128
  deriving DecidableEq, Repr

/-- The conditions of 60_exceptions.md R241. `sourceUnavailable` is a launch outcome that nothing records (43_arbiter.md R201). -/
inductive FaultCode where
  | invalidRegister
  | invalidAddress
  | crossLine
  | imageMisaligned
  | sourceUnavailable
  deriving DecidableEq, Repr

/-- What a fault record names: the faulting record, or the base address of an overlay (60_exceptions.md R241, column recorded). -/
inductive FaultInfo where
  | record (i : Instr)
  | overlayBase (base : Nat)
  deriving DecidableEq, Repr

/-- The fault record (10_state.md R32). -/
structure FaultRecord where
  code : FaultCode
  rc : Nat
  info : FaultInfo
  deriving DecidableEq, Repr

/-- An event of the output history (10_state.md R36). -/
inductive Event where
  | trace (t : Trace)
  | snapshot (s : Snapshot)
  | fault (f : FaultRecord)
  | ended
  deriving DecidableEq, Repr

/-- One overlay of the memory image: a base address, not range-checked here, and 16 bytes (20_memory.md R63). -/
structure Overlay where
  base : Nat
  bytes : Vector Byte 16
  deriving DecidableEq, Repr

/-- The memory image the host supplies: none selected, one that cannot be read, or its overlays in file order
(20_memory.md R63, R64). -/
inductive Image where
  | notSelected
  | unreadable
  | readable (overlays : List Overlay)
  deriving DecidableEq, Repr

/-- A register preload (43_arbiter.md R197). -/
structure Preload where
  reg : RegIndex
  value : Word
  deriving DecidableEq, Repr

/-- A record as the host presents it: a word at the request port (30_encoding.md R85), or an already parsed record, whose values
may be out of range (R84). -/
inductive Request where
  | word (w : RequestWord)
  | record (i : Instr)
  deriving DecidableEq, Repr

/-- What the host supplies (43_arbiter.md R200); the model's own fields (entry 2). -/
structure HostInputs where
  /-- The instruction source exists and can be read (43_arbiter.md R196 step 2). -/
  sourceReadable : Bool
  image : Image
  preloads : List Preload
  /-- The records not yet accepted, in order (43_arbiter.md R195). -/
  stream : List Request
  /-- The host signals the end of the stream after the last of them (43_arbiter.md R198). -/
  streamEnds : Bool
  deriving DecidableEq, Repr

/-- The whole state of the block (10_state.md R38). -/
structure State where
  x : Vector Word 16
  mem : Memory
  lines : Vector Line 8
  rc : Nat
  phase : Phase
  fault : Option FaultRecord
  fsm : Fsm
  out : List Event
  /-- The configuration input VERBOSE, constant for a run (00_scope.md R6; entry 3). -/
  verbose : Bool
  host : HostInputs
  deriving DecidableEq, Repr

/-- The model's own stops: the spec says that the block takes no step. None is raised by a record the block accepts. -/
inductive Fault where
  /-- A step in phase Done, Faulted or Aborted, which have no outgoing transitions (10_state.md R31; 93_implementation_defined.md
  U14, `stuck`). Raised by `step`. Safe. -/
  | noStepInFinalPhase
  /-- Phase Running, no record left, and the host has not signalled the end: the block waits (93_implementation_defined.md U13,
  `stuck`). Raised by `step`. Safe. -/
  | waitingForHost
  /-- A record presented in a phase other than Running, or while the controller is not IDLE: "a record presented then has no
  step" (43_arbiter.md R191). Raised by the meanings of LDR and STR. Safe. -/
  | recordNotAccepted
  deriving DecidableEq, Repr

/-- Refusals. Both operations of the block have their meaning, so none is given. -/
inductive Refusal where
  /-- An instruction without a meaning yet. Raised by an arm of `exec` only; safe. -/
  | notModelled (mnemonic : String)
  deriving DecidableEq, Repr

/-- A line after reset (10_state.md R28). -/
def Line.reset : Line := { valid := false, dirty := false, tag := 0x000, data := Vector.replicate 8 0x00 }

/-- A host that has supplied nothing yet (entry 2). -/
def HostInputs.nothing : HostInputs :=
  { sourceReadable := false, image := .notSelected, preloads := [], stream := [], streamEnds := false }

/-- The block right after construction, with its configuration input and what the host supplies for the run
(70_reset_and_hazards.md R270, 43_arbiter.md R196 step 1). -/
def State.construct (verbose : Bool) (host : HostInputs) : State :=
  { x := Vector.replicate 16 0x0000
    mem := []
    lines := Vector.replicate 8 Line.reset
    rc := 0
    phase := .launch
    fault := none
    fsm := .idle
    out := []
    verbose := verbose
    host := host }

/-- The state right after reset (70_reset_and_hazards.md R270), VERBOSE off and the host having supplied nothing
(entries 2 and 3). -/
def State.reset : State := State.construct false HostInputs.nothing

end Sys2Proof.Machine
end

