-- ==== Sys2Proof/Machine/Address.lean ====
section
/-! DEFINITION. The cache address decoder (40_address_decoder.md): combinational, total, raises nothing (R102). -/

namespace Sys2Proof.Machine

/-- The four values of `Decode(a)` (40_address_decoder.md R100). -/
structure AddressFields where
  offset : Offset
  index : Index
  tag : Tag
  blockBase : Addr
  deriving DecidableEq, Repr

/-- `Decode(a)` (40_address_decoder.md R100). -/
def addressFields (a : Addr) : AddressFields :=
  { offset := (a &&& 0x7).setWidth 3
    index := ((a >>> 3) &&& 0x7).setWidth 3
    tag := ((a >>> 6) &&& 0x3FF).setWidth 10
    blockBase := a &&& 0xFFF8 }

/-- `LineBase(t, i)`, the block address of what line i holds with tag t (40_address_decoder.md R106). -/
def lineBase (t : Tag) (i : Index) : Addr := (t.setWidth 16 <<< 6) ||| (i.setWidth 16 <<< 3)

/-- The address of a (tag, index, offset) triple (40_address_decoder.md R105). -/
def addressOf (t : Tag) (i : Index) (off : Offset) : Addr := lineBase t i ||| off.setWidth 16

end Sys2Proof.Machine
end

