-- ==== Sys2Proof/Machine/Operands.lean ====
section
/-! DEFINITION. The operands of LDR and STR: the register operand and the absolute address operand (30_encoding.md R86), and the
two bytes of the line that an access moves (20_memory.md R53, R55). There is no other operand form and no other width. -/

namespace Sys2Proof.Machine

/-- The register operand of a record whose register value passed the check of 42_load_store.md R160. -/
def regOperand (r : Nat) : RegIndex := BitVec.ofNat 4 r

/-- The address operand of a record whose address value passed the check of 42_load_store.md R160. -/
def addrOperand (a : Nat) : Addr := BitVec.ofNat 16 a

/-- The low byte v[7:0] (00_scope.md R14). -/
def lowByte (v : Word) : Byte := v.setWidth 8

/-- The high byte v[15:8] (00_scope.md R14). -/
def highByte (v : Word) : Byte := (v >>> 8).setWidth 8

/-- Two bytes as one value, `b0` at the lower offset (00_scope.md R14, 20_memory.md R53). -/
def combineBytes (b0 b1 : Byte) : Word := b0.setWidth 16 ||| (b1.setWidth 16 <<< 8)

/-- The byte of a block at an offset. -/
def blockByte (d : Block) (off : Offset) : Byte := d[off.toNat]'off.isLt

/-- The block with the byte at an offset replaced. -/
def setBlockByte (d : Block) (off : Offset) (b : Byte) : Block := d.set off.toNat b off.isLt

/-- The value of the two bytes at `off` and `off + 1` (20_memory.md R53, load). Reached only at offsets 0 to 6 (R57), so the sum
does not wrap (entry 11). -/
def loadPair (d : Block) (off : Offset) : Word := combineBytes (blockByte d off) (blockByte d (off + 1))

/-- The block with a value stored at `off` and `off + 1` (20_memory.md R53, store). Reached only at offsets 0 to 6 (R57), so the
sum does not wrap (entry 11). -/
def storePair (d : Block) (off : Offset) (v : Word) : Block :=
  setBlockByte (setBlockByte d off (lowByte v)) (off + 1) (highByte v)

end Sys2Proof.Machine
end

