-- ==== Sys2Proof/Machine/Flags.lean ====
section
/-! DEFINITION. The block has no status flags and no condition codes (10_state.md R34). The one outcome an access computes is that
of its lookup, hit or miss; it is reported in the trace record and not stored. -/

namespace Sys2Proof.Machine

/-- Line i of the cache array (10_state.md R26). -/
def State.line (s : State) (i : Index) : Line := s.lines[i.toNat]'i.isLt

/-- `lookup(index, tag)`: true for Hit. An invalid line misses whatever its tag is (41_cache_controller.md R120). -/
def lookup (s : State) (i : Index) (t : Tag) : Bool := (s.line i).valid && (s.line i).tag == t

end Sys2Proof.Machine
end

