-- ==== Sys2Proof/Machine/Ops.lean ====
section
/-! DEFINITION. The named operations over memory, registers, lines and outputs; the cache controller's write-back, fill and miss;
fault entry; and the prelude and the end that LDR and STR share. -/

namespace Sys2Proof.Machine

/-! ### Raw main memory (20_memory.md R51, R52) -/

/-- One byte of raw memory. -/
def Memory.read : Memory → Nat → Byte
  | [], _ => unlistedByte
  | (k, v) :: m, a => if k = a then v else Memory.read m a

/-- A cell placed before the first listed address above its own. -/
def Memory.insert (a : Nat) (b : Byte) : Memory → Memory
  | [] => [(a, b)]
  | (k, v) :: m => if a < k then (a, b) :: (k, v) :: m else (k, v) :: Memory.insert a b m

/-- A memory without an address's cells, so that it reads as unlisted. -/
def Memory.erase (a : Nat) : Memory → Memory
  | [] => []
  | (k, v) :: m => if k = a then Memory.erase a m else (k, v) :: Memory.erase a m

/-- One byte of raw memory written; the byte an unlisted address reads as is not listed (entry 6). -/
def Memory.write (m : Memory) (a : Nat) (b : Byte) : Memory :=
  if b = unlistedByte then Memory.erase a m else Memory.insert a b (Memory.erase a m)

/-- Every address of the list is above `low`, the addresses rise strictly and stay inside the address space, and no byte is the
one an unlisted address reads as. -/
def Memory.wfFrom (low : Nat) : Memory → Bool
  | [] => true
  | (k, v) :: m => decide (low ≤ k) && decide (k < Config.memBytes) && decide (v ≠ unlistedByte) && Memory.wfFrom (k + 1) m

/-- The canonical form of a memory (entry 6). -/
def Memory.wf (m : Memory) : Bool := Memory.wfFrom 0 m

/-- `MemRead(addr, n)` (20_memory.md R51). -/
def memRead (m : Memory) (addr n : Nat) : List Byte := (List.range n).map fun k => Memory.read m (addr + k)

/-- `MemWrite(addr, n, bytes)`, n the length of the list (20_memory.md R51). -/
def memWrite (m : Memory) (addr : Nat) : List Byte → Memory
  | [] => m
  | b :: bs => memWrite (Memory.write m addr b) (addr + 1) bs

/-- `BlockRead(base)`: byte k of the block is the byte of address base + k (20_memory.md R52). -/
def blockRead (m : Memory) (base : Addr) : Block := Vector.ofFn fun k => Memory.read m (base.toNat + k)

/-- `BlockWrite(base, d)` (20_memory.md R52). -/
def blockWrite (m : Memory) (base : Addr) (d : Block) : Memory := memWrite m base.toNat d.toList

/-! ### Registers, lines and outputs -/

/-- x[r] (00_scope.md R13). -/
def State.readReg (s : State) (r : RegIndex) : Word := s.x[r.toNat]'r.isLt

/-- x[r] <- v (00_scope.md R13). No register is hard-wired (10_state.md R20). -/
def State.writeReg (s : State) (r : RegIndex) (v : Word) : State := { s with x := s.x.set r.toNat v r.isLt }

/-- L[i] replaced. -/
def State.setLine (s : State) (i : Index) (l : Line) : State := { s with lines := s.lines.set i.toNat l i.isLt }

/-- `emit`: an event at the end of the output history (00_scope.md R13, 10_state.md R36). -/
def State.emit (s : State) (e : Event) : State := { s with out := s.out ++ [e] }

/-- A copy of registers, lines and raw memory 0x0000..0x007F (44_trace_snapshot.md R224, R228). -/
def State.snapshot (s : State) : Snapshot :=
  { x := s.x, lines := s.lines, mem := Vector.ofFn fun k => Memory.read s.mem k }

/-- `emit Snapshot(S)` when VERBOSE (44_trace_snapshot.md R225 (a), (b)). -/
def State.verboseSnapshot (s : State) : State := if s.verbose then s.emit (.snapshot s.snapshot) else s

/-! ### Fault entry (60_exceptions.md R247). There is no return from a fault (R248), so no operation stands for one. -/

/-- `raise F(info)`: the fault is recorded if none was, emitted, and stops the block; nothing else changes
(60_exceptions.md R247). -/
def State.raise (s : State) (code : FaultCode) (info : FaultInfo) : State :=
  let f := s.fault.getD { code := code, rc := s.rc, info := info }
  { s with fault := some f, out := s.out ++ [.fault f], phase := .faulted, fsm := .idle }

/-- The numbers of 60_exceptions.md R241. -/
def FaultCode.number : FaultCode → Nat
  | .invalidRegister => 1
  | .invalidAddress => 2
  | .crossLine => 3
  | .imageMisaligned => 4
  | .sourceUnavailable => 5

/-! ### The cache controller's actions (41_cache_controller.md) -/

/-- The block of line i written to the line's own block address (41_cache_controller.md R123). It changes no line. -/
def writeBack (s : State) (i : Index) : State :=
  { s with mem := blockWrite s.mem (lineBase (s.line i).tag i) (s.line i).data }

/-- The evicted line is written back exactly when it is valid and dirty (41_cache_controller.md R122). -/
def needsWriteBack (s : State) (i : Index) : Bool := (s.line i).valid && (s.line i).dirty

/-- The block at `base` copied into line i, which becomes valid and clean with the new tag (41_cache_controller.md R125). -/
def fillLine (s : State) (i : Index) (t : Tag) (base : Addr) : State :=
  s.setLine i { valid := true, dirty := false, tag := t, data := blockRead s.mem base }

/-- `Miss(idx, tg, base)` (41_cache_controller.md R133). -/
def missLine (s : State) (i : Index) (t : Tag) (base : Addr) : State :=
  fillLine (if needsWriteBack s i then writeBack s i else s) i t base

/-- L[idx] made to hold the block of a decoded address: nothing on a hit (41_cache_controller.md R128), the miss procedure on a
miss (42_load_store.md R160). -/
def makeResident (s : State) (f : AddressFields) : State :=
  if lookup s f.index f.tag then s else missLine s f.index f.tag f.blockBase

/-- The coherent view of one byte (20_memory.md R65). -/
def State.view (s : State) (a : Addr) : Byte :=
  let f := addressFields a
  if lookup s f.index f.tag then blockByte (s.line f.index).data f.offset else Memory.read s.mem a.toNat

/-! ### What LDR and STR share (42_load_store.md R160, 43_arbiter.md R192) -/

/-- The block accepts a record only in phase Running with fsm = IDLE (43_arbiter.md R191). -/
def State.accepting (s : State) : Bool := s.phase == .running && s.fsm == .idle

/-- The first fault condition a record meets, in the order of the prelude (42_load_store.md R160, 60_exceptions.md R246). -/
def recordFault (i : Instr) : Option FaultCode :=
  if 15 < i.reg then some .invalidRegister
  else if 0xFFFF < i.addr then some .invalidAddress
  else if (addressFields (addrOperand i.addr)).offset = 7 then some .crossLine
  else none

/-- What the prelude comes to. -/
inductive Prelude where
  /-- The block takes no step for the record (43_arbiter.md R191). -/
  | notAccepted
  /-- The record raised a fault; the state after fault entry (60_exceptions.md R247). -/
  | raised (s : State)
  /-- The line is resident: the state, the decoded address and the outcome of the lookup, taken before any miss handling. -/
  | ready (s : State) (f : AddressFields) (hit : Bool)
  deriving DecidableEq, Repr

/-- The common prelude of both operations (42_load_store.md R160). -/
def prelude (i : Instr) (s : State) : Prelude :=
  if s.accepting then
    match recordFault i with
    | some code => .raised (s.raise code (.record i))
    | none =>
      let f := addressFields (addrOperand i.addr)
      .ready (makeResident s f) f (lookup s f.index f.tag)
  else .notAccepted

/-- The end of both operations: the Trace event, the snapshot if VERBOSE, then rc <- rc + 1 (43_arbiter.md R192). -/
def respond (s : State) (t : Trace) : State :=
  let s' := (s.emit (.trace t)).verboseSnapshot
  { s' with rc := s'.rc + 1 }

/-- The trace record of an executed record (44_trace_snapshot.md R220). -/
def traceOf (i : Instr) (f : AddressFields) (hit : Bool) (v : Word) : Trace :=
  { op := i.op, reg := regOperand i.reg, addr := addrOperand i.addr, tag := f.tag, index := f.index, offset := f.offset
    hit := hit, value := v }

/-- The two-byte write of STR: the bytes into L[idx], which becomes dirty (42_load_store.md R162). -/
def storeToLine (s : State) (f : AddressFields) (v : Word) : State :=
  s.setLine f.index { s.line f.index with data := storePair (s.line f.index).data f.offset v, dirty := true }

/-! ### The host's stream -/

/-- The record a request presents: a request word is decoded, a parsed record is taken as it is (30_encoding.md R84, R85). -/
def fetchRecord : Request → Instr
  | .word w => decode w
  | .record i => i

/-- The stream of a text: its well-formed lines, already parsed; malformed lines never reach the block (30_encoding.md R83). -/
def textStream (lines : List (List Char)) : List Request := (parseLines lines).map .record

/-- The state with the records still to come replaced. -/
def State.withStream (s : State) (rest : List Request) : State := { s with host := { s.host with stream := rest } }

/-! ### The launch (43_arbiter.md R196) -/

/-- The overlays of an image; an image that is not selected or cannot be read has none (20_memory.md R63, R64). -/
def imageOverlays : Image → List Overlay
  | .notSelected => []
  | .unreadable => []
  | .readable l => l

/-- An overlay whose base is not a multiple of 16, or is above 0xFFF0, is refused (20_memory.md R63). -/
def Overlay.misaligned (o : Overlay) : Bool := o.base % Config.overlayBytes != 0 || decide (Config.maxOverlayBase < o.base)

/-- The base of the first refused overlay (20_memory.md R63, the loop that checks). -/
def firstMisaligned : List Overlay → Option Nat
  | [] => none
  | o :: os => if o.misaligned then some o.base else firstMisaligned os

/-- The overlays written in order, a later one over an earlier one (20_memory.md R63, the loop that writes). -/
def applyOverlays (m : Memory) : List Overlay → Memory
  | [] => m
  | o :: os => applyOverlays (memWrite m o.base o.bytes.toList) os

/-- The preloads written in the order given (43_arbiter.md R197; entry 12). -/
def applyPreloads (s : State) : List Preload → State
  | [] => s
  | p :: ps => applyPreloads (s.writeReg p.reg p.value) ps

end Sys2Proof.Machine
end

