-- ==== Sys2Proof/Machine/Arbiter.lean ====
section
/-! DEFINITION. The launch and the end of a run (43_arbiter.md R196 to R201). -/

namespace Sys2Proof.Machine

/-- Steps 3 to 6 of the launch with an image every base of which is legal: the overlays, the preloads, the launch snapshot if
VERBOSE, phase Running (43_arbiter.md R196). -/
def startRun (s : State) : State :=
  let imaged : State := { s with mem := applyOverlays s.mem (imageOverlays s.host.image) }
  let preloaded := (applyPreloads imaged s.host.preloads).verboseSnapshot
  { preloaded with phase := .running }

/-- The launch (43_arbiter.md R196): abort without an instruction source (R201), fault at a misaligned overlay with no overlay
applied (60_exceptions.md R245), else start the run. -/
def launch (s : State) : State :=
  if s.host.sourceReadable then
    match firstMisaligned (imageOverlays s.host.image) with
    | some base => s.raise .imageMisaligned (.overlayBase base)
    | none => startRun s
  else { s with phase := .aborted }

/-- The end of the stream: the final snapshot whatever VERBOSE is, End, phase Done; no line is written back
(43_arbiter.md R198). -/
def endOfStream (s : State) : State :=
  let s' := (s.emit (.snapshot s.snapshot)).emit .ended
  { s' with phase := .done }

end Sys2Proof.Machine
end

