-- ==== Sys2Proof/Machine/LoadStore.lean ====
section
/-! DEFINITION. The meanings of LDR and STR (42_load_store.md R161, R162). -/

namespace Sys2Proof.Machine

/-- LDR r a (42_load_store.md R161). -/
def execLdr (r a : Nat) (s : State) : Host.Outcome State Fault Refusal :=
  match prelude (.ldr r a) s with
  | .notAccepted => .fault .recordNotAccepted
  | .raised t => .next t
  | .ready t f hit =>
    let v := loadPair (t.line f.index).data f.offset
    .next (respond (t.writeReg (regOperand r) v) (traceOf (.ldr r a) f hit v))

/-- STR r a (42_load_store.md R162). -/
def execStr (r a : Nat) (s : State) : Host.Outcome State Fault Refusal :=
  match prelude (.str r a) s with
  | .notAccepted => .fault .recordNotAccepted
  | .raised t => .next t
  | .ready t f hit =>
    let v := t.readReg (regOperand r)
    .next (respond (storeToLine t f v) (traceOf (.str r a) f hit v))

end Sys2Proof.Machine
end

