-- ==== Sys2Proof/Machine/Dispatch.lean ====
section
/-! DEFINITION. One arm per instruction (43_arbiter.md R192). -/

namespace Sys2Proof.Machine

def exec (i : Instr) (s : State) : Host.Outcome State Fault Refusal :=
  match i with
  | .ldr r a => Sys2Proof.Machine.execLdr r a s
  | .str r a => Sys2Proof.Machine.execStr r a s

end Sys2Proof.Machine
end

