-- ==== Sys2Proof/Machine/Step.lean ====
section
/-! DEFINITION. One step of the block: the launch, one record of the host's stream, or the end of the run; and the load of one
request word that the host of this pipeline uses (entry 4). -/

namespace Sys2Proof.Machine

/-- One step, by the phase (10_state.md R31, 43_arbiter.md R191, R196, R198). -/
def step (s : State) : Host.Outcome State Fault Refusal :=
  match s.phase with
  | .launch => .next (launch s)
  | .running =>
    match s.host.stream with
    | req :: rest => exec (fetchRecord req) (s.withStream rest)
    | [] => if s.host.streamEnds then .next (endOfStream s) else .fault .waitingForHost
  | .done => .fault .noStepInFinalPhase
  | .faulted => .fault .noStepInFinalPhase
  | .aborted => .fault .noStepInFinalPhase

/-- The state in phase Running, its controller IDLE, whose next record is the request word in the low `nbits` bits of `w`; a number
wider than a request word is no request, and nothing is loaded (entry 4). -/
def State.withFetchWord (s : State) (nbits w : Nat) : State :=
  if w % 2 ^ nbits < 2 ^ Config.requestBits then
    { s with phase := .running, fsm := .idle, host := { s.host with stream := [.word (BitVec.ofNat 21 (w % 2 ^ nbits))] } }
  else s

end Sys2Proof.Machine
end

