-- ==== Sys2Proof/Machine/Render.lean ====
section
/-! DEFINITION. The text of traces and snapshots (44_trace_snapshot.md R222, R226), as lists of characters. Outside the step: the
content of an event is what the block emits, its text is for a reader (00_scope.md R4). -/

namespace Sys2Proof.Machine

/-- One upper-case hexadecimal digit. -/
def hexChar (d : Nat) : Char := if d < 10 then Char.ofNat (48 + d) else Char.ofNat (55 + d)

/-- The low `width` hexadecimal digits of a number, zero-padded (44_trace_snapshot.md R222). -/
def hexText : Nat → Nat → List Char
  | 0, _ => []
  | width + 1, n => hexText width (n / 16) ++ [hexChar (n % 16)]

/-- `LDR` or `STR` (44_trace_snapshot.md R222). -/
def mnemonicText : Op → List Char
  | .ldr => ['L', 'D', 'R']
  | .str => ['S', 'T', 'R']

/-- The record text of a well-formed record, one digit of register and four of address (30_encoding.md R81). -/
def recordText (i : Instr) : List Char :=
  mnemonicText i.op ++ [' '] ++ hexText 1 i.reg ++ [' '] ++ hexText 4 i.addr

/-- The trace line of a trace record (44_trace_snapshot.md R222). -/
def traceText (t : Trace) : List Char :=
  mnemonicText t.op ++ [' '] ++ hexText 1 t.reg.toNat ++ [' '] ++ hexText 4 t.addr.toNat ++ [' '] ++ hexText 3 t.tag.toNat
    ++ [' '] ++ hexText 1 t.index.toNat ++ [' '] ++ hexText 1 t.offset.toNat ++ [' ', if t.hit then 'H' else 'M', ' ']
    ++ hexText 4 t.value.toNat ++ ['\n']

/-- A flag as 0 or 1 (44_trace_snapshot.md R226). -/
def bitText (b : Bool) : List Char := if b then ['1'] else ['0']

/-- Texts separated by one space. -/
def joinSpaced : List (List Char) → List Char
  | [] => []
  | [t] => t
  | t :: u :: rest => t ++ [' '] ++ joinSpaced (u :: rest)

/-- The name and value of register k, its number in decimal (44_trace_snapshot.md R226). -/
def registerText (s : Snapshot) (k : Fin 16) : List Char :=
  ['R'] ++ (if k.val < 10 then [hexChar k.val] else ['1', hexChar (k.val - 10)]) ++ ['='] ++ hexText 4 s.x[k].toNat

/-- One row of four registers (44_trace_snapshot.md R226). -/
def registerRow (s : Snapshot) (row : Fin 4) : List Char :=
  joinSpaced ((List.finRange 4).map fun j => registerText s ⟨4 * row.val + j.val, by omega⟩) ++ ['\n']

/-- The row of one cache line (44_trace_snapshot.md R226). -/
def lineRow (s : Snapshot) (k : Fin 8) : List Char :=
  ['L', hexChar k.val] ++ [' ', 'V', '='] ++ bitText s.lines[k].valid ++ [' ', 'D', '='] ++ bitText s.lines[k].dirty
    ++ [' ', 'T', 'A', 'G', '='] ++ hexText 3 s.lines[k].tag.toNat ++ [' ', 'D', 'A', 'T', 'A', '=']
    ++ joinSpaced (s.lines[k].data.toList.map fun b => hexText 2 b.toNat) ++ ['\n']

/-- One row of 16 memory bytes (44_trace_snapshot.md R226). -/
def memoryRow (s : Snapshot) (row : Fin 8) : List Char :=
  hexText 4 (16 * row.val) ++ [':', ' ']
    ++ joinSpaced ((List.finRange 16).map fun j => hexText 2 (s.mem[16 * row.val + j.val]'(by omega)).toNat) ++ ['\n']

/-- The text of a snapshot (44_trace_snapshot.md R226). -/
def snapshotText (s : Snapshot) : List Char :=
  ['R', 'E', 'G', 'S', '\n'] ++ (List.finRange 4).flatMap (registerRow s)
    ++ ['C', 'A', 'C', 'H', 'E', '\n'] ++ (List.finRange 8).flatMap (lineRow s)
    ++ ['M', 'E', 'M', '\n'] ++ (List.finRange 8).flatMap (memoryRow s)

end Sys2Proof.Machine
end

