-- ==== Sys2Proof/Machine/Controller.lean ====
section
/-! DEFINITION. The cache controller's state machine (41_cache_controller.md R131), one transition a tick. It refines the one
atomic step of LDR and STR and is never seen between its states (R132); `exec` is that step as one function (entry 10). -/

namespace Sys2Proof.Machine

/-- A block whose controller may be between two states of its table, with what one state hands to the next: the accepted record,
the outcome of the lookup, the value moved. -/
structure Controller where
  state : State
  record : Option Instr
  hit : Bool
  value : Word
  deriving DecidableEq, Repr

/-- The state with the controller's micro-state replaced. -/
def State.withFsm (s : State) (m : Fsm) : State := { s with fsm := m }

/-- The two-byte access of a record and the value it moves (42_load_store.md R161, R162). -/
def accessLine (i : Instr) (f : AddressFields) (s : State) : State × Word :=
  match i with
  | .ldr r _ =>
    let v := loadPair (s.line f.index).data f.offset
    (s.writeReg (regOperand r) v, v)
  | .str r _ =>
    let v := s.readReg (regOperand r)
    (storeToLine s f v, v)

/-- A record presented to the block. -/
def Controller.present (s : State) (i : Instr) : Controller := { state := s, record := some i, hit := false, value := 0 }

/-- Row IDLE: waits for a record, in phase Running. -/
def tickIdle (c : Controller) : Controller :=
  if c.state.phase = .running then { c with state := c.state.withFsm .check } else c

/-- Row CHECK: the range checks and the offset test; a fault ends the record. -/
def tickCheck (c : Controller) (i : Instr) : Controller :=
  match recordFault i with
  | some code => { c with state := c.state.raise code (.record i), record := none }
  | none => { c with state := c.state.withFsm .lookup }

/-- Row LOOKUP: hit or miss, and where the record goes next. -/
def tickLookup (c : Controller) (f : AddressFields) : Controller :=
  if lookup c.state f.index f.tag then { c with state := c.state.withFsm .access, hit := true }
  else if needsWriteBack c.state f.index then { c with state := c.state.withFsm .writeback, hit := false }
  else { c with state := c.state.withFsm .fill, hit := false }

/-- Row WRITEBACK. -/
def tickWriteback (c : Controller) (f : AddressFields) : Controller :=
  { c with state := (writeBack c.state f.index).withFsm .fill }

/-- Row FILL. -/
def tickFill (c : Controller) (f : AddressFields) : Controller :=
  { c with state := (fillLine c.state f.index f.tag f.blockBase).withFsm .access }

/-- Row ACCESS. -/
def tickAccess (c : Controller) (i : Instr) (f : AddressFields) : Controller :=
  let access := accessLine i f c.state
  { c with state := access.1.withFsm .respond, value := access.2 }

/-- Row RESPOND. -/
def tickRespond (c : Controller) (i : Instr) (f : AddressFields) : Controller :=
  { c with state := (respond c.state (traceOf i f c.hit c.value)).withFsm .idle, record := none }

/-- One transition of the controller (41_cache_controller.md R131); without a record it stays where it is. -/
def tick (c : Controller) : Controller :=
  match c.record with
  | none => c
  | some i =>
    let f := addressFields (addrOperand i.addr)
    match c.state.fsm with
    | .idle => tickIdle c
    | .check => tickCheck c i
    | .lookup => tickLookup c f
    | .writeback => tickWriteback c f
    | .fill => tickFill c f
    | .access => tickAccess c i f
    | .respond => tickRespond c i f

/-- `n` transitions. -/
def ticks : Nat → Controller → Controller
  | 0, c => c
  | n + 1, c => ticks n (tick c)

/-- How many transitions a record takes, from IDLE back to IDLE (70_reset_and_hazards.md R281). -/
def transitionCount (i : Instr) (s : State) : Nat :=
  let f := addressFields (addrOperand i.addr)
  if (recordFault i).isSome then 2
  else if lookup s f.index f.tag then 5
  else if needsWriteBack s f.index then 7
  else 6

end Sys2Proof.Machine
end

