-- ==== Sys2Proof/Machine/Sequential.lean ====
section
/-! DEFINITION. The sequential semantics that 20_memory.md R66 compares the block with: registers and one flat memory, no cache.
Executing a list of records in order (43_arbiter.md R190). -/

namespace Sys2Proof.Machine

/-- Registers and a flat memory. -/
structure FlatMachine where
  x : Vector Word 16
  mem : Memory
  deriving DecidableEq, Repr

/-- The value of the two bytes at an address of the flat memory, low byte first (20_memory.md R53). -/
def FlatMachine.load (q : FlatMachine) (a : Nat) : Word := combineBytes (Memory.read q.mem a) (Memory.read q.mem (a + 1))

/-- One record on registers and flat memory; a record that faults changes nothing. -/
def FlatMachine.exec (i : Instr) (q : FlatMachine) : FlatMachine :=
  if (recordFault i).isSome then q
  else
    match i with
    | .ldr r a => { q with x := q.x.set (regOperand r).toNat (q.load a) (regOperand r).isLt }
    | .str r a =>
      let v := q.x[(regOperand r).toNat]'(regOperand r).isLt
      { q with mem := Memory.write (Memory.write q.mem a (lowByte v)) (a + 1) (highByte v) }

/-- A list of records on registers and flat memory, in order. -/
def FlatMachine.run : List Instr → FlatMachine → FlatMachine
  | [], q => q
  | i :: is, q => FlatMachine.run is (q.exec i)

/-- A list of records presented to the block in order, stopping at the first that is not executed to a next state. -/
def runRecords : List Instr → State → Host.Outcome State Fault Refusal
  | [], s => .next s
  | i :: is, s =>
    match exec i s with
    | .next t => runRecords is t
    | .fault r => .fault r
    | .refused r => .refused r

end Sys2Proof.Machine
end

