-- ==== Sys2Proof/Safety.lean ====
section
/-! DEFINITION. What counts as a good end of a run, the premise of a run, the relation to the sequential semantics, and the
invariant of the block, in the terms the statements use. -/

namespace Sys2Proof.Machine

/-- A run has ended well exactly when phase = Done (43_arbiter.md R199). -/
def EndedWell (s : State) : Prop := s.phase = .done

/-- The kind of an event (10_state.md R36). -/
inductive EventKind where
  | trace
  | snapshot
  | fault
  | ended
  deriving DecidableEq, Repr

/-- The kind of an event. -/
def Event.kind : Event → EventKind
  | .trace _ => .trace
  | .snapshot _ => .snapshot
  | .fault _ => .fault
  | .ended => .ended

/-- A history without its snapshots. -/
def withoutSnapshots (out : List Event) : List Event := out.filter fun e => decide (e.kind ≠ .snapshot)

/-- The kinds of events of a run of `n` executed records, in order, before its end (44_trace_snapshot.md R227). -/
def runEvents (verbose : Bool) (n : Nat) : List EventKind :=
  (if verbose then [.snapshot] else [])
    ++ (List.replicate n (if verbose then [EventKind.trace, .snapshot] else [.trace])).flatten

/-- The order of events (44_trace_snapshot.md R227): the launch snapshot, then each record's events, then either the final Snapshot
and End, or one Fault; a launch fault is the only event, and an aborted run has none. -/
def OutputOrdered (s : State) : Prop :=
  match s.phase with
  | .launch => s.out = []
  | .running => s.out.map Event.kind = runEvents s.verbose s.rc
  | .done => s.out.map Event.kind = runEvents s.verbose s.rc ++ [.snapshot, .ended]
  | .faulted =>
    s.out.map Event.kind = runEvents s.verbose s.rc ++ [.fault] ∨ (s.rc = 0 ∧ s.out.map Event.kind = [.fault])
  | .aborted => s.out = []

/-- Raw memory has its canonical form (entry 6). -/
def MemoryCanonical (s : State) : Prop := Memory.wf s.mem = true

/-- A dirty line is valid (10_state.md R29). -/
def DirtyIsValid (s : State) : Prop := ∀ i, (s.line i).dirty = true → (s.line i).valid = true

/-- A valid clean line holds what raw memory holds at its block (20_memory.md R67). -/
def CleanAgreesWithMemory (s : State) : Prop :=
  ∀ i k, (s.line i).valid = true → (s.line i).dirty = false →
    blockByte (s.line i).data k = Memory.read s.mem ((lineBase (s.line i).tag i).toNat + k.toNat)

/-- The fault record is set exactly in phase Faulted, carries the record counter, and is the last event
(10_state.md R32, 60_exceptions.md R247). -/
def FaultRecordOfPhase (s : State) : Prop :=
  match s.fault with
  | none => s.phase ≠ .faulted
  | some f => s.phase = .faulted ∧ f.rc = s.rc ∧ s.out.getLast? = some (.fault f)

/-- Before the run no record has executed and every line is invalid (10_state.md R28, R30; 20_memory.md R63). -/
def LaunchIsFresh (s : State) : Prop := s.phase = .launch → s.rc = 0 ∧ ∀ i, (s.line i).valid = false

/-- The invariant of the block, which every step keeps. -/
structure Inv (s : State) : Prop where
  memory : MemoryCanonical s
  dirty : DirtyIsValid s
  clean : CleanAgreesWithMemory s
  controller : s.fsm = .idle
  fault : FaultRecordOfPhase s
  fresh : LaunchIsFresh s
  output : OutputOrdered s

/-- The block behaves as registers and flat memory: equal registers, and the coherent view is the flat memory
(20_memory.md R65, R66). -/
def Represents (s : State) (q : FlatMachine) : Prop := s.x = q.x ∧ ∀ a : Addr, s.view a = Memory.read q.mem a.toNat

/-- The values after construction (70_reset_and_hazards.md R270). -/
def AtReset (s : State) : Prop :=
  (∀ r, s.readReg r = 0) ∧ (∀ a : Addr, Memory.read s.mem a.toNat = 0)
    ∧ (∀ i, (s.line i).valid = false ∧ (s.line i).dirty = false ∧ (s.line i).tag = 0 ∧ ∀ k, blockByte (s.line i).data k = 0)
    ∧ s.rc = 0 ∧ s.phase = .launch ∧ s.fault = none ∧ s.fsm = .idle ∧ s.out = []

/-- The record is presented where the block accepts it (43_arbiter.md R191) and meets no fault condition (42_load_store.md R160):
then it executes. -/
def RunsRecord (i : Instr) (s : State) : Prop :=
  s.phase = .running ∧ s.fsm = .idle ∧ i.reg ≤ 15 ∧ i.addr ≤ 0xFFFF ∧ i.addr % 8 ≠ 7

/-- An access with address fields `f` misses a valid dirty line, so that the line is written back to its own block
(41_cache_controller.md R122). -/
def WritesBack (f : AddressFields) (s : State) : Prop :=
  lookup s f.index f.tag = false ∧ (s.line f.index).valid = true ∧ (s.line f.index).dirty = true

/-- What an executed record at address fields `f` changes apart from its register, its line and its events: rc advances, and the
eight bytes of the evicted block are written when the access writes it back; every other line, every other byte of memory and every
other field is as before (41_cache_controller.md R121, R134; 43_arbiter.md R192). -/
def RecordFrame (f : AddressFields) (s t : State) : Prop :=
  (∀ j, j ≠ f.index → t.line j = s.line j)
    ∧ (WritesBack f s → ∀ k : Offset,
        Memory.read t.mem ((lineBase (s.line f.index).tag f.index).toNat + k.toNat) = blockByte (s.line f.index).data k)
    ∧ (∀ b : Nat, (¬ WritesBack f s ∨ ∀ k : Offset, b ≠ (lineBase (s.line f.index).tag f.index).toNat + k.toNat) →
        Memory.read t.mem b = Memory.read s.mem b)
    ∧ t.rc = s.rc + 1 ∧ t.phase = s.phase ∧ t.fault = s.fault ∧ t.fsm = s.fsm ∧ t.verbose = s.verbose ∧ t.host = s.host

/-- The events of one executed record after the history `before`: its trace record, then a snapshot of the state after it if
VERBOSE (43_arbiter.md R192). -/
def EventsOfRecord (before : State) (t : Trace) (after : State) : Prop :=
  after.out = before.out ++ .trace t :: (if before.verbose then [.snapshot after.snapshot] else [])

/-- An overlay's base is legal (20_memory.md R63). -/
def LegalBase (o : Overlay) : Prop := o.base % 16 = 0 ∧ o.base ≤ 0xFFF0

/-- The byte an image puts at an address: that of the last overlay that covers it, else the reset byte (20_memory.md R63). -/
def imageByte (os : List Overlay) (a : Nat) : Byte :=
  match os.reverse.find? (fun o => decide (o.base ≤ a ∧ a < o.base + 16)) with
  | some o => o.bytes.toList.getD (a - o.base) 0
  | none => 0

/-- The value the preloads leave in a register: that of the last one that names it, else the reset value (43_arbiter.md R197;
entry 12). -/
def preloadValue (ps : List Preload) (r : RegIndex) : Word :=
  match ps.reverse.find? (fun p => decide (p.reg = r)) with
  | some p => p.value
  | none => 0

/-- The bytes a STR at address `a` writes include the byte at `b` (20_memory.md R55). -/
def StoresTo (i : Instr) (b : Nat) : Prop := i.op = .str ∧ (b = i.addr ∨ b = i.addr + 1)

/-- Two states that differ at most in VERBOSE and in the snapshots emitted (00_scope.md R6). -/
def SameButSnapshots (s t : State) : Prop :=
  s.x = t.x ∧ s.mem = t.mem ∧ s.lines = t.lines ∧ s.rc = t.rc ∧ s.phase = t.phase ∧ s.fault = t.fault ∧ s.fsm = t.fsm
    ∧ s.host = t.host ∧ withoutSnapshots s.out = withoutSnapshots t.out

/-- The outcomes of two machines agree: the same stop, or next states in a relation. -/
def SameOutcome (rel : State → State → Prop) : Host.Outcome State Fault Refusal → Host.Outcome State Fault Refusal → Prop
  | .next s, .next t => rel s t
  | .fault p, .fault q => p = q
  | .refused p, .refused q => p = q
  | _, _ => False

/-- Two lines that agree on `valid`, and on every field when valid (10_state.md R28). -/
def SameLine (l m : Line) : Prop := l.valid = m.valid ∧ (l.valid = true → l = m)

/-- Two states that differ at most in the hidden fields of invalid lines and in the snapshots emitted (10_state.md R28). -/
def SameButInvalidLines (s t : State) : Prop :=
  s.x = t.x ∧ s.mem = t.mem ∧ (∀ i, SameLine (s.line i) (t.line i)) ∧ s.rc = t.rc ∧ s.phase = t.phase ∧ s.fault = t.fault
    ∧ s.fsm = t.fsm ∧ s.verbose = t.verbose ∧ s.host = t.host
    ∧ withoutSnapshots s.out = withoutSnapshots t.out

end Sys2Proof.Machine
end

