-- ==== Sys2Proof/Certificates/Slice0/Obligations.lean ====
section
/-! DEFINITION. The statements for the provers, one `def Obligations.<Name> : Prop` each. A docstring names the rule of spec/ that a
statement formalises; where it rests on an inference or decision the spec marks as its own, or on a choice of the model's, it says so. -/

open Sys2Proof Sys2Proof.Machine

/-! ### Encoding and record text (30_encoding.md) -/

/-- Decoding the request word of a well-formed record gives the record back (30_encoding.md section 3): no bit is dropped. -/
def Obligations.DecodeEncodeIsIdentity : Prop := ∀ i : Instr, WellFormed i → decode (encode i) = i

/-- Every one of the 2^21 request words presents a well-formed record, and is that record's request word (30_encoding.md section 4,
an inference the spec marks as derived). -/
def Obligations.EveryRequestWordIsARecord : Prop := ∀ w : RequestWord, WellFormed (decode w) ∧ encode (decode w) = w

/-- The layout of the request word, read and written, and the opcode map, which looks at bit 20 and nothing else (30_encoding.md R85,
R87; the layout is the spec's decision D5). -/
def Obligations.RequestWordLayout : Prop :=
  (∀ i : Instr, WellFormed i →
    (encode i).toNat = (match i.op with | .ldr => 0 | .str => 1) <<< 20 ||| i.reg <<< 16 ||| i.addr) ∧
  ∀ w : RequestWord,
    ((decode w).op = .ldr ↔ w &&& 0x100000 = 0x000000) ∧ ((decode w).op = .str ↔ w &&& 0x100000 = 0x100000)
      ∧ (decode w).op = (if w.getLsbD 20 then .str else .ldr)
      ∧ (decode w).reg = (w.extractLsb 19 16).toNat ∧ (decode w).addr = (w.extractLsb 15 0).toNat

/-- Request words written out by hand decode to their records (95_test_vectors.md section 7.1). -/
def Obligations.SampleRequestWordsDecode : Prop :=
  decode 0b000000000000000000000#21 = .ldr 0 0x0000 ∧ decode 0b100010000000000010000#21 = .str 1 0x0010
    ∧ decode 0b000100000000000010000#21 = .ldr 2 0x0010 ∧ decode 0b100000000000001000000#21 = .str 0 0x0040
    ∧ decode 0b111111111111111111110#21 = .str 15 0xFFFE ∧ decode 0b011111111111111111111#21 = .ldr 15 0xFFFF

/-- A number is read as a request word exactly when it has no bit above bit 20, and a wider one is rejected by name. The rejection
is the model's choice (entry 9): the port has 21 bits and no more. -/
def Obligations.WiderNumbersAreRejected : Prop :=
  ∀ w : Nat,
    decodeNumber w = (if w < 2 ^ 21 then .ok (decode (BitVec.ofNat 21 w)) else .error .widerThanRequestWord)
      ∧ decodeTableWord 24 w =
        (if w % 2 ^ 24 < 2 ^ 21 then some (decode (BitVec.ofNat 21 (w % 2 ^ 24))) else none)

/-- At the request port a record meets no fault but CrossLine, and meets it exactly at offset 7 (60_exceptions.md section 1; the
statement about the port is one the spec marks as derived). -/
def Obligations.PortWordsFaultOnlyAtOffsetSeven : Prop :=
  ∀ w : RequestWord, recordFault (decode w) = if w.extractLsb 2 0 = 7 then some .crossLine else none

/-- The text of a well-formed record reads back as the record (30_encoding.md section 2; the grammar is the spec's decision D26). -/
def Obligations.RecordTextReadsBack : Prop := ∀ i : Instr, WellFormed i → parseLine (recordText i) = some i

/-- A malformed line never reaches the block: the stream of a text is the same without it, and every well-formed line gives one
record, in order (30_encoding.md section 2). -/
def Obligations.MalformedLinesAreDropped : Prop :=
  (∀ (before after : List (List Char)) (line : List Char),
    parseLine line = none → textStream (before ++ line :: after) = textStream (before ++ after)) ∧
  ∀ (before after : List (List Char)) (line : List Char) (i : Instr),
    parseLine line = some i → textStream (before ++ line :: after) = textStream before ++ .record i :: textStream after

/-! ### The address decoder (40_address_decoder.md) -/

/-- The fields of an address as bit slices (40_address_decoder.md, the address layout, which the spec marks as derived). -/
def Obligations.AddressFieldsAreBitSlices : Prop :=
  ∀ a : Addr,
    (addressFields a).offset = a.extractLsb 2 0 ∧ (addressFields a).index = a.extractLsb 5 3
      ∧ (addressFields a).tag = a.extractLsb 15 6 ∧ (addressFields a).blockBase = a.extractLsb 15 3 ++ 0b000#3

/-- Tag and index give back the block base, and base and offset the address, without a carry (40_address_decoder.md R103, R104). -/
def Obligations.AddressRecomposes : Prop :=
  ∀ a : Addr,
    ((addressFields a).tag.setWidth 16 <<< 6) ||| ((addressFields a).index.setWidth 16 <<< 3) = (addressFields a).blockBase
      ∧ (addressFields a).blockBase.toNat + (addressFields a).offset.toNat = a.toNat
      ∧ (addressFields a).blockBase.extractLsb 2 0 = 0

/-- Addresses and (tag, index, offset) triples correspond one to one, and two addresses share a block exactly when they share tag
and index (40_address_decoder.md R105). -/
def Obligations.AddressDecompositionIsABijection : Prop :=
  (∀ a : Addr, ((addressFields a).tag.setWidth 16 <<< 6) ||| ((addressFields a).index.setWidth 16 <<< 3)
      ||| (addressFields a).offset.setWidth 16 = a) ∧
  (∀ (t : Tag) (i : Index) (off : Offset),
    addressFields ((t.setWidth 16 <<< 6) ||| (i.setWidth 16 <<< 3) ||| off.setWidth 16) =
      { offset := off, index := i, tag := t, blockBase := (t.setWidth 16 <<< 6) ||| (i.setWidth 16 <<< 3) }) ∧
  ∀ a b : Addr, (addressFields a).blockBase = (addressFields b).blockBase ↔
    (addressFields a).tag = (addressFields b).tag ∧ (addressFields a).index = (addressFields b).index

/-! ### Memory, reset and the invariant -/

/-- Two memories in canonical form that read alike are equal data. The canonical form is the model's (entry 6). -/
def Obligations.CanonicalMemoriesThatReadAlikeAreEqual : Prop :=
  ∀ m n : Memory, Memory.wf m = true → Memory.wf n = true →
    (∀ a : Addr, Memory.read m a.toNat = Memory.read n a.toNat) → m = n

/-- The values after construction, whatever the host supplies, and no later reset: no step leads to phase Launch
(70_reset_and_hazards.md R270; some values are the spec's decisions D3, D4, D7, D17, D24). -/
def Obligations.ValuesAfterConstruction : Prop :=
  AtReset State.reset ∧ (∀ (verbose : Bool) (host : HostInputs), AtReset (State.construct verbose host))
    ∧ ∀ s t : State, step s = .next t → t.phase ≠ .launch

/-- The invariant holds at reset and after every construction (10_state.md section 3, an inference the spec marks as derived; the
canonical form of memory is the model's, entry 6). -/
def Obligations.ConstructionMeetsTheInvariant : Prop :=
  Inv State.reset ∧ ∀ (verbose : Bool) (host : HostInputs), Inv (State.construct verbose host)

/-- Every step keeps the invariant: canonical memory, dirty lines valid, clean lines equal to memory, controller IDLE between
records, the fault record set exactly in phase Faulted, the order of events (inferences the spec marks as derived; the canonical
form of memory is the model's, entry 6). -/
def Obligations.StepKeepsTheInvariant : Prop := ∀ s t : State, Inv s → step s = .next t → Inv t

/-- A snapshot copies the registers, the lines and the first 128 bytes of raw memory, and taking one only adds its event
(44_trace_snapshot.md R224). -/
def Obligations.SnapshotShowsTheState : Prop :=
  ∀ s : State,
    (∀ r : RegIndex, s.snapshot.x[r.toNat]'r.isLt = s.readReg r) ∧ (∀ i : Index, s.snapshot.lines[i.toNat]'i.isLt = s.line i)
      ∧ (∀ k : Fin 128, s.snapshot.mem[k] = Memory.read s.mem k)
      ∧ s.verboseSnapshot = { s with out := s.out ++ if s.verbose then [.snapshot s.snapshot] else [] }

/-! ### LDR and STR (42_load_store.md) -/

/-- The two bytes of a value, and the value of two bytes, low byte first; a stored pair reads back at every offset an access can
have (00_scope.md R14, the spec's decision D1). -/
def Obligations.BytesAndWords : Prop :=
  (∀ v : Word, lowByte v = v.extractLsb 7 0 ∧ highByte v = v.extractLsb 15 8) ∧
  (∀ b0 b1 : Byte, combineBytes b0 b1 = b0.setWidth 16 ||| (b1.setWidth 16 <<< 8)) ∧
  ∀ (d : Block) (off : Offset) (v : Word), off ≠ 7 → loadPair (storePair d off v) off = v

/-- LDR completes, and all it does (42_load_store.md section LDR; the byte order is the spec's decision D1): the register gets the
coherent bytes at `a` and `a + 1`, low byte first, on a hit and on a miss alike; the line becomes valid with the tag of the access,
clean on a miss, and holds the coherent bytes of its block; one trace record; the frame. -/
def Obligations.LdrResult : Prop :=
  ∀ (r a : Nat) (s : State), RunsRecord (.ldr r a) s →
    ∃ (t : State) (v : Word), exec (.ldr r a) s = .next t
      ∧ v = combineBytes (s.view (BitVec.ofNat 16 a)) (s.view (BitVec.ofNat 16 (a + 1)))
      ∧ (∀ q : RegIndex, t.readReg q = if q = BitVec.ofNat 4 r then v else s.readReg q)
      ∧ (let f := addressFields (BitVec.ofNat 16 a)
         (t.line f.index).valid = true ∧ (t.line f.index).tag = f.tag
          ∧ (t.line f.index).dirty = (lookup s f.index f.tag && (s.line f.index).dirty)
          ∧ (∀ k : Offset, blockByte (t.line f.index).data k = s.view (f.blockBase + k.setWidth 16))
          ∧ EventsOfRecord s
            { op := .ldr, reg := BitVec.ofNat 4 r, addr := BitVec.ofNat 16 a, tag := f.tag, index := f.index
              offset := f.offset, hit := lookup s f.index f.tag, value := v } t
          ∧ RecordFrame f s t)

/-- STR completes, and all it does (42_load_store.md section STR; the byte order is the spec's decision D1): the low byte goes to
the offset, the high byte to the next, the other six bytes are the coherent ones; the line becomes valid and dirty with the tag of
the access; no register changes; one trace record carrying the value written; the frame. -/
def Obligations.StrResult : Prop :=
  ∀ (r a : Nat) (s : State), RunsRecord (.str r a) s →
    ∃ (t : State) (v : Word), exec (.str r a) s = .next t
      ∧ v = s.readReg (BitVec.ofNat 4 r)
      ∧ (∀ q : RegIndex, t.readReg q = s.readReg q)
      ∧ (let f := addressFields (BitVec.ofNat 16 a)
         (t.line f.index).valid = true ∧ (t.line f.index).tag = f.tag ∧ (t.line f.index).dirty = true
          ∧ (∀ k : Offset, blockByte (t.line f.index).data k =
              if k = f.offset then v.extractLsb 7 0
              else if k = f.offset + 1 then v.extractLsb 15 8
              else s.view (f.blockBase + k.setWidth 16))
          ∧ EventsOfRecord s
            { op := .str, reg := BitVec.ofNat 4 r, addr := BitVec.ofNat 16 a, tag := f.tag, index := f.index
              offset := f.offset, hit := lookup s f.index f.tag, value := v } t
          ∧ RecordFrame f s t)

/-- A hit touches no memory, leaves the line's block and tag resident and its dirty bit as it was for LDR; a miss leaves the line
clean for LDR; after STR the line is dirty either way (41_cache_controller.md R126, R128). -/
def Obligations.DirtyBitAfterAnAccess : Prop :=
  ∀ (i : Instr) (s : State), RunsRecord i s →
    ∃ (t : State) (f : AddressFields), exec i s = .next t ∧ f = addressFields (BitVec.ofNat 16 i.addr)
      ∧ (lookup s f.index f.tag = true →
          t.mem = s.mem ∧ (t.line f.index).valid = true ∧ (t.line f.index).tag = (s.line f.index).tag
            ∧ (i.op = .ldr → t.line f.index = s.line f.index) ∧ (i.op = .str → (t.line f.index).dirty = true))
      ∧ (lookup s f.index f.tag = false → (t.line f.index).dirty = decide (i.op = .str))

/-- A miss on a valid dirty line writes its eight bytes to the line's own block address; a miss on any other line writes no memory
(41_cache_controller.md R122, R123). -/
def Obligations.AMissWritesBackTheDirtyLine : Prop :=
  ∀ (i : Instr) (s : State) (f : AddressFields), RunsRecord i s → f = addressFields (BitVec.ofNat 16 i.addr) →
    lookup s f.index f.tag = false →
    ∃ (t : State) (old : Line) (base : Addr), exec i s = .next t ∧ old = s.line f.index
      ∧ base = (old.tag.setWidth 16 <<< 6) ||| (f.index.setWidth 16 <<< 3)
      ∧ (if old.valid = true ∧ old.dirty = true then
          (∀ k : Offset, Memory.read t.mem (base.toNat + k.toNat) = blockByte old.data k)
            ∧ ∀ b : Nat, b < base.toNat ∨ base.toNat + 8 ≤ b → Memory.read t.mem b = Memory.read s.mem b
         else t.mem = s.mem)
      ∧ (writeBack s f.index).lines = s.lines

/-- The trace of an executed record: its operands, the fields of its address, the outcome of the lookup before any miss handling,
and the value written to the register or to the line, on a hit and on a miss alike (44_trace_snapshot.md R220, R221). -/
def Obligations.TraceReportsTheAccess : Prop :=
  ∀ (i : Instr) (s : State), RunsRecord i s →
    ∃ (t : State) (tr : Trace), exec i s = .next t ∧ EventsOfRecord s tr t
      ∧ tr.op = i.op ∧ tr.reg.toNat = i.reg ∧ tr.addr.toNat = i.addr
      ∧ addressFields tr.addr =
          { offset := tr.offset, index := tr.index, tag := tr.tag, blockBase := (addressFields tr.addr).blockBase }
      ∧ tr.hit = lookup s tr.index tr.tag
      ∧ (i.op = .ldr → t.readReg tr.reg = tr.value)
      ∧ (i.op = .str → s.readReg tr.reg = tr.value
          ∧ blockByte (t.line tr.index).data tr.offset = tr.value.extractLsb 7 0
          ∧ blockByte (t.line tr.index).data (tr.offset + 1) = tr.value.extractLsb 15 8)

/-- The coherent view changes only where a STR writes, by the bytes it writes; a LDR leaves every byte of it as it was, whatever it
evicts (20_memory.md section 6, which the spec marks as derived). -/
def Obligations.ViewChangesOnlyWhereAStoreWrites : Prop :=
  ∀ (i : Instr) (s : State), CleanAgreesWithMemory s → RunsRecord i s →
    ∃ t : State, exec i s = .next t
      ∧ ∀ b : Addr, t.view b =
          if i.op = .str ∧ b = BitVec.ofNat 16 i.addr then lowByte (s.readReg (BitVec.ofNat 4 i.reg))
          else if i.op = .str ∧ b = BitVec.ofNat 16 (i.addr + 1) then highByte (s.readReg (BitVec.ofNat 4 i.reg))
          else s.view b

/-- No program order of records loses a store: after STR r a and any records that write neither of its bytes, whatever they evict,
LDR q a puts the stored value in its register (70_reset_and_hazards.md section 3, which the spec marks as derived). -/
def Obligations.NoOrderOfRecordsLosesAStore : Prop :=
  ∀ (r q a : Nat) (between : List Instr) (s : State), CleanAgreesWithMemory s → RunsRecord (.str r a) s →
    (∀ i ∈ between, RunsRecord i s ∧ ¬ StoresTo i a ∧ ¬ StoresTo i (a + 1)) → q ≤ 15 →
    ∃ t : State, runRecords (.str r a :: between ++ [.ldr q a]) s = .next t
      ∧ t.readReg (BitVec.ofNat 4 q) = s.readReg (BitVec.ofNat 4 r)

/-- The block is sequentially consistent: run on any records that meet no fault condition, from any state whose coherent view is a
flat memory, it ends with the registers and the coherent view of the sequential semantics (20_memory.md section 6, which the spec
marks as derived). -/
def Obligations.RunsAreSequentiallyConsistent : Prop :=
  ∀ (records : List Instr) (s : State) (q : FlatMachine), CleanAgreesWithMemory s → s.accepting = true →
    (∀ i ∈ records, recordFault i = none) → Represents s q →
    ∃ t : State, runRecords records s = .next t ∧ Represents t (q.run records) ∧ CleanAgreesWithMemory t

/-- Cold start: while a line is invalid, an access to it is a miss, whatever its hidden tag is (41_cache_controller.md section 4,
which the spec marks as derived). -/
def Obligations.FirstAccessToAnInvalidLineMisses : Prop :=
  ∀ (i : Instr) (s : State), RunsRecord i s → (s.line (addressFields (BitVec.ofNat 16 i.addr)).index).valid = false →
    ∃ (t : State) (tr : Trace), exec i s = .next t ∧ tr.hit = false ∧ EventsOfRecord s tr t

/-- Hit after first access: once an address has been accessed, and while no record with another tag at its index has come between,
every access to its block is a hit (41_cache_controller.md section 4, which the spec marks as derived). -/
def Obligations.LaterAccessToTheSameBlockHits : Prop :=
  ∀ (first later : Instr) (between : List Instr) (s : State), RunsRecord first s → RunsRecord later s →
    (∀ i ∈ between, RunsRecord i s
      ∧ ((addressFields (BitVec.ofNat 16 i.addr)).index = (addressFields (BitVec.ofNat 16 first.addr)).index →
          (addressFields (BitVec.ofNat 16 i.addr)).tag = (addressFields (BitVec.ofNat 16 first.addr)).tag)) →
    (addressFields (BitVec.ofNat 16 later.addr)).blockBase = (addressFields (BitVec.ofNat 16 first.addr)).blockBase →
    ∃ (t u : State) (tr : Trace), runRecords (first :: between) s = .next t ∧ exec later t = .next u
      ∧ tr.hit = true ∧ EventsOfRecord t tr u

/-! ### Faults and acceptance (60_exceptions.md, 43_arbiter.md) -/

/-- Fault entry: a record that meets a fault condition raises the first one in the order InvalidRegister, InvalidAddress,
CrossLine; the fault is recorded and emitted, the phase becomes Faulted, nothing else changes, and the block takes no further step
(20_memory.md R57, 60_exceptions.md R247; the spec's decisions D2, D7, D8, D9). -/
def Obligations.FaultEntry : Prop :=
  ∀ (i : Instr) (s : State), s.phase = .running → s.fsm = .idle → s.fault = none →
    15 < i.reg ∨ 0xFFFF < i.addr ∨ i.addr % 8 = 7 →
    ∃ (f : FaultRecord) (t : State), exec i s = .next t
      ∧ f = { code := if 15 < i.reg then .invalidRegister else if 0xFFFF < i.addr then .invalidAddress else .crossLine
              rc := s.rc, info := .record i }
      ∧ t = { s with fault := some f, out := s.out ++ [.fault f], phase := .faulted, fsm := .idle }
      ∧ step t = .fault .noStepInFinalPhase ∧ ¬ EndedWell t

/-- A record has no step exactly where the block does not accept it: outside phase Running, or with the controller not IDLE
(43_arbiter.md R191, the spec's decision D7). -/
def Obligations.RecordsAreAcceptedOnlyWhenRunningAndIdle : Prop :=
  ∀ (i : Instr) (s : State),
    (exec i s = .fault .recordNotAccepted ↔ ¬ (s.phase = .running ∧ s.fsm = .idle))
      ∧ ((∃ t, exec i s = .next t) ↔ s.phase = .running ∧ s.fsm = .idle)

/-- A step stops exactly in a final phase, while it waits for the host, and where a record is not accepted; from every other state
there is a next state (93_implementation_defined.md U13, U14; the names of the stops are the model's, entry 7). -/
def Obligations.StepStopsExactlyWhereTheSpecSays : Prop :=
  ∀ s : State,
    (step s = .fault .noStepInFinalPhase ↔ s.phase = .done ∨ s.phase = .faulted ∨ s.phase = .aborted)
      ∧ (step s = .fault .waitingForHost ↔ s.phase = .running ∧ s.host.stream = [] ∧ s.host.streamEnds = false)
      ∧ (step s = .fault .recordNotAccepted ↔ s.phase = .running ∧ s.host.stream ≠ [] ∧ s.fsm ≠ .idle)
      ∧ ((∃ t, step s = .next t) ↔
          s.phase = .launch ∨ (s.phase = .running ∧ s.host.stream = [] ∧ s.host.streamEnds = true)
            ∨ (s.phase = .running ∧ s.host.stream ≠ [] ∧ s.fsm = .idle))

/-! ### Steps -/

/-- A step runs the record the next request presents: the word at the request port decoded, or the parsed record as it is; beside
`exec` it only takes the request from the stream (43_arbiter.md section 1). -/
def Obligations.StepRunsTheDecodedRecord : Prop :=
  ∀ (s : State) (rest : List Request), s.phase = .running →
    (∀ w : RequestWord, s.host.stream = .word w :: rest → step s = exec (decode w) (s.withStream rest))
      ∧ ∀ i : Instr, s.host.stream = .record i :: rest → step s = exec i (s.withStream rest)

/-- The word of a well-formed record, loaded where a step fetches, is the record the next step runs. How a word is loaded is the
model's choice (entry 4). -/
def Obligations.ALoadedWordIsRunByTheNextStep : Prop :=
  ∀ (i : Instr) (s : State), WellFormed i →
    step (s.withFetchWord 24 (encode i).toNat) =
      exec i { s with phase := .running, fsm := .idle, host := { s.host with stream := [] } }

/-- The phases: Launch at reset, each transition with its cause, and none out of Done, Faulted and Aborted (10_state.md R31, the
spec's decision D7). -/
def Obligations.PhaseTransitions : Prop :=
  State.reset.phase = .launch ∧
  ∀ s t : State, step s = .next t →
    (s.phase = .launch ∧
      ((s.host.sourceReadable = false ∧ t.phase = .aborted)
        ∨ (s.host.sourceReadable = true ∧ (∃ o ∈ imageOverlays s.host.image, ¬ LegalBase o) ∧ t.phase = .faulted)
        ∨ (s.host.sourceReadable = true ∧ (∀ o ∈ imageOverlays s.host.image, LegalBase o) ∧ t.phase = .running))) ∨
    (s.phase = .running ∧
      ((s.host.stream = [] ∧ s.host.streamEnds = true ∧ t.phase = .done)
        ∨ (∃ req rest, s.host.stream = req :: rest ∧ recordFault (fetchRecord req) ≠ none ∧ t.phase = .faulted)
        ∨ ∃ req rest, s.host.stream = req :: rest ∧ recordFault (fetchRecord req) = none ∧ t.phase = .running))

/-- The fault record is none at reset, is set by the first fault together with its event, and once set is never cleared or
overwritten (10_state.md section 4, 60_exceptions.md R247). That a fault in a state with a record already set keeps it, and that the
launch fault records the current rc where the spec gives 0, is the model's reading of states that no run reaches (entry 8). -/
def Obligations.FaultRecordIsWrittenOnce : Prop :=
  State.reset.fault = none ∧
  ∀ s t : State, step s = .next t →
    (∀ f, s.fault = some f → t.fault = some f)
      ∧ ∀ f, s.fault = none → t.fault = some f → t.out = s.out ++ [.fault f] ∧ t.phase = .faulted ∧ f.rc = s.rc

/-- No step removes or rewrites an event (10_state.md R36, the spec's decision D24). -/
def Obligations.OutputHistoryOnlyGrows : Prop :=
  State.reset.out = [] ∧ ∀ s t : State, step s = .next t → ∃ events, t.out = s.out ++ events

/-- The record counter advances by exactly 1 for each executed record and never otherwise, and a malformed line is no record
(10_state.md R30, the spec's decision D4). -/
def Obligations.RecordCounterCountsExecutedRecords : Prop :=
  State.reset.rc = 0 ∧
  (∀ (before after : List (List Char)) (line : List Char),
    parseLine line = none → textStream (before ++ line :: after) = textStream (before ++ after)) ∧
  ∀ s t : State, step s = .next t →
    ((∃ req rest, s.phase = .running ∧ s.host.stream = req :: rest ∧ recordFault (fetchRecord req) = none) ∧ t.rc = s.rc + 1) ∨
    ((¬ ∃ req rest, s.phase = .running ∧ s.host.stream = req :: rest ∧ recordFault (fetchRecord req) = none) ∧ t.rc = s.rc)

/-- Once Running, a register changes only by a LDR that names it (43_arbiter.md section 2). -/
def Obligations.RegistersChangeOnlyByTheirLdr : Prop :=
  ∀ (s t : State) (q : RegIndex), s.phase = .running → step s = .next t → t.readReg q ≠ s.readReg q →
    ∃ req rest r a, s.host.stream = req :: rest ∧ fetchRecord req = .ldr r a ∧ recordFault (.ldr r a) = none
      ∧ q = BitVec.ofNat 4 r

/-- Once Running, a byte of raw memory changes only when a record misses a valid dirty line, inside that line's own block, and to
the line's byte: no store, no load and no end of the stream writes memory otherwise (20_memory.md sections 1 and 6). -/
def Obligations.MemoryChangesOnlyByWriteBack : Prop :=
  ∀ (s t : State) (b : Nat), s.phase = .running → step s = .next t → Memory.read t.mem b ≠ Memory.read s.mem b →
    ∃ req rest f, s.host.stream = req :: rest ∧ f = addressFields (BitVec.ofNat 16 (fetchRecord req).addr)
      ∧ WritesBack f s
      ∧ ∃ k : Offset, b = (lineBase (s.line f.index).tag f.index).toNat + k.toNat
        ∧ Memory.read t.mem b = blockByte (s.line f.index).data k

/-- A dirty bit is set only by a STR to its line and cleared only by a fill of its line (41_cache_controller.md section 2, which
the spec marks as derived). -/
def Obligations.DirtyBitsChangeOnlyByStoreAndFill : Prop :=
  ∀ (s t : State) (j : Index), step s = .next t → (t.line j).dirty ≠ (s.line j).dirty →
    ∃ req rest f, s.phase = .running ∧ s.host.stream = req :: rest
      ∧ f = addressFields (BitVec.ofNat 16 (fetchRecord req).addr) ∧ f.index = j ∧ recordFault (fetchRecord req) = none
      ∧ ((t.line j).dirty = true → (fetchRecord req).op = .str)
      ∧ ((t.line j).dirty = false → lookup s f.index f.tag = false)

/-- No step clears a valid bit; a valid bit or a tag changes only by a fill of its line, to the tag of the record that missed
(41_cache_controller.md section 2, which the spec marks as derived). -/
def Obligations.ValidIsNeverClearedAndTagsChangeOnlyByFill : Prop :=
  ∀ (s t : State) (j : Index), step s = .next t →
    ((s.line j).valid = true → (t.line j).valid = true)
      ∧ ((t.line j).valid ≠ (s.line j).valid ∨ (t.line j).tag ≠ (s.line j).tag →
          ∃ req rest f, s.phase = .running ∧ s.host.stream = req :: rest
            ∧ f = addressFields (BitVec.ofNat 16 (fetchRecord req).addr) ∧ f.index = j
            ∧ lookup s f.index f.tag = false ∧ (t.line j).valid = true ∧ (t.line j).tag = f.tag)

/-- Raw memory differs from the coherent view only under a valid dirty line that holds the address's tag (20_memory.md section 6,
which the spec marks as derived). -/
def Obligations.MemoryIsStaleOnlyUnderADirtyLine : Prop :=
  ∀ (s : State) (a : Addr), CleanAgreesWithMemory s → s.view a ≠ Memory.read s.mem a.toNat →
    (s.line (addressFields a).index).valid = true ∧ (s.line (addressFields a).index).dirty = true
      ∧ (s.line (addressFields a).index).tag = (addressFields a).tag

/-! ### Launch and end of a run (43_arbiter.md) -/

/-- The launch with a readable instruction source and legal overlays: the state at the first record (70_reset_and_hazards.md section
2, which the spec marks as derived). That a later preload of a register wins over an earlier one is the model's choice (entry 12). -/
def Obligations.LaunchStartsTheRun : Prop :=
  ∀ (verbose : Bool) (host : HostInputs), host.sourceReadable = true → (∀ o ∈ imageOverlays host.image, LegalBase o) →
    ∃ t : State, step (State.construct verbose host) = .next t
      ∧ t.phase = .running ∧ t.rc = 0 ∧ t.fault = none ∧ t.fsm = .idle
      ∧ (∀ i, t.line i = Line.reset)
      ∧ (∀ a : Addr, Memory.read t.mem a.toNat = imageByte (imageOverlays host.image) a.toNat)
      ∧ (∀ r, t.readReg r = preloadValue host.preloads r)
      ∧ t.out = (if verbose then [.snapshot t.snapshot] else [])
      ∧ t.verbose = verbose ∧ t.host = host

/-- A misaligned overlay is a launch fault: the first one's base is recorded and emitted, no overlay is applied, no snapshot is
taken and no record runs (60_exceptions.md R245, the spec's decisions D10, D21). -/
def Obligations.MisalignedImageIsALaunchFault : Prop :=
  ∀ (verbose : Bool) (host : HostInputs) (before after : List Overlay) (o : Overlay), host.sourceReadable = true →
    imageOverlays host.image = before ++ o :: after → (∀ p ∈ before, LegalBase p) → ¬ LegalBase o →
    ∃ (f : FaultRecord) (t : State), step (State.construct verbose host) = .next t
      ∧ f = { code := .imageMisaligned, rc := 0, info := .overlayBase o.base } ∧ f.code.number = 4
      ∧ t = { State.construct verbose host with phase := .faulted, fault := some f, out := [.fault f] }
      ∧ step t = .fault .noStepInFinalPhase

/-- Without a readable instruction source the run is aborted: nothing is emitted, and the block stops (43_arbiter.md R201, the
spec's decision D21). -/
def Obligations.MissingSourceAbortsTheRun : Prop :=
  ∀ (verbose : Bool) (host : HostInputs), host.sourceReadable = false →
    ∃ t : State, step (State.construct verbose host) = .next t
      ∧ t = { State.construct verbose host with phase := .aborted }
      ∧ t.out = [] ∧ step t = .fault .noStepInFinalPhase

/-- The end of the stream: the final snapshot exactly once whatever VERBOSE is, End, phase Done, and no line written back
(43_arbiter.md R198, the spec's decision D12). -/
def Obligations.EndOfStreamEndsTheRun : Prop :=
  ∀ s : State, s.phase = .running → s.host.stream = [] → s.host.streamEnds = true →
    ∃ t : State, step s = .next t
      ∧ t = { s with phase := .done, out := s.out ++ [.snapshot s.snapshot, .ended] }
      ∧ step t = .fault .noStepInFinalPhase

/-- A run that ends well emits one trace for each executed record and, with VERBOSE, two snapshots more than records, without it
exactly one (44_trace_snapshot.md sections 1 and 2). -/
def Obligations.RunsThatEndWellEmitTheirSnapshots : Prop :=
  ∀ (k : Nat) (verbose : Bool) (host : HostInputs) (t : State),
    core.run k (State.construct verbose host) = .next t → EndedWell t →
    (t.out.map Event.kind).count .trace = t.rc
      ∧ (t.out.map Event.kind).count .snapshot = (if verbose then t.rc + 2 else 1)
      ∧ (t.out.map Event.kind).count .fault = 0 ∧ (t.out.map Event.kind).count .ended = 1

/-- Every run over a finite stream whose end the host signals reaches Done, Faulted or Aborted, within one step for the launch, one
for each record and one for the end (70_reset_and_hazards.md section 3, which the spec marks as derived). That the launch is one step,
which the bound counts, is the model's choice (entry 5). -/
def Obligations.EveryRunEnds : Prop :=
  ∀ s : State, s.fsm = .idle → s.host.streamEnds = true →
    ∃ (k : Nat) (t : State), k ≤ s.host.stream.length + 2 ∧ core.run k s = .next t
      ∧ (t.phase = .done ∨ t.phase = .faulted ∨ t.phase = .aborted)

/-! ### The controller, and what cannot be observed -/

/-- The controller's state machine refines the one step: presented with a record, it leaves IDLE, returns to IDLE after at most
seven transitions and not before, and ends in the state that `exec` gives in one step (41_cache_controller.md section 3,
70_reset_and_hazards.md section 3; the state names are the spec's decision D17). That the controller is a machine of its own beside the
one step, and that a record that faults takes two transitions, is the model's reading (entry 10). -/
def Obligations.ControllerTicksGiveTheStep : Prop :=
  ∀ (i : Instr) (s : State), s.accepting = true →
    transitionCount i s ≤ 7
      ∧ (∀ n, 0 < n → n < transitionCount i s →
          (ticks n (Controller.present s i)).state.fsm ≠ .idle ∧ (ticks n (Controller.present s i)).record = some i)
      ∧ (ticks (transitionCount i s) (Controller.present s i)).state.fsm = .idle
      ∧ (ticks (transitionCount i s) (Controller.present s i)).record = none
      ∧ exec i s = .next (ticks (transitionCount i s) (Controller.present s i)).state

/-- VERBOSE is constant and changes only when snapshots are emitted: from states that differ only in VERBOSE and in snapshots, a
step stops alike or leads to states that differ only so (00_scope.md R6). -/
def Obligations.VerboseChangesOnlySnapshots : Prop :=
  (∀ s t : State, SameButSnapshots s t → SameOutcome SameButSnapshots (step s) (step t)) ∧
  ∀ s t : State, step s = .next t → t.verbose = s.verbose

/-- The dirty, tag and data fields of an invalid line affect no hit, write-back, loaded value, fault or trace: from states that
differ only in them and in snapshots, a step stops alike or leads to states that differ only so (10_state.md section 3, which the
spec marks as derived). -/
def Obligations.FieldsOfInvalidLinesAffectNothing : Prop :=
  ∀ s t : State, SameButInvalidLines s t → SameOutcome SameButInvalidLines (step s) (step t)

/-- The text of a trace record determines it (44_trace_snapshot.md section 1; the layout is the spec's decision D13). -/
def Obligations.TraceTextDeterminesTheTrace : Prop := ∀ t u : Trace, traceText t = traceText u → t = u
end

