-- ==== Sys2Proof/Laws/Address.lean ====
section
/-! SUPPORT. The address decoder in numbers (40_address_decoder.md): each field by division and remainder, so that later proofs are
linear arithmetic. -/

namespace Sys2Proof.Machine

theorem addressFields_offset_toNat (a : Addr) : (addressFields a).offset.toNat = a.toNat % 8 := by
  simp only [addressFields, BitVec.toNat_setWidth, BitVec.toNat_and]
  rw [show BitVec.toNat (7 : Addr) = 2 ^ 3 - 1 from rfl, Nat.and_two_pow_sub_one_eq_mod]; omega

theorem addressFields_index_toNat (a : Addr) : (addressFields a).index.toNat = a.toNat / 8 % 8 := by
  simp only [addressFields, BitVec.toNat_setWidth, BitVec.toNat_and, BitVec.toNat_ushiftRight, Nat.shiftRight_eq_div_pow]
  rw [show BitVec.toNat (7 : Addr) = 2 ^ 3 - 1 from rfl, Nat.and_two_pow_sub_one_eq_mod]; omega

theorem addressFields_tag_toNat (a : Addr) : (addressFields a).tag.toNat = a.toNat / 64 := by
  simp only [addressFields, BitVec.toNat_setWidth, BitVec.toNat_and, BitVec.toNat_ushiftRight, Nat.shiftRight_eq_div_pow]
  rw [show BitVec.toNat (0x3FF : Addr) = 2 ^ 10 - 1 from rfl, Nat.and_two_pow_sub_one_eq_mod]; omega

/-- The block base is the address with its offset taken away. -/
theorem addressFields_blockBase_toNat (a : Addr) : (addressFields a).blockBase.toNat = 8 * (a.toNat / 8) := by
  have h : a &&& 0xFFF8#16 = (a >>> 3) <<< 3 := by
    ext i hi; interval_cases i <;> simp
  have e : (addressFields a).blockBase = (a >>> 3) <<< 3 := h
  rw [e]
  simp only [BitVec.toNat_shiftLeft, BitVec.toNat_ushiftRight, Nat.shiftRight_eq_div_pow, Nat.shiftLeft_eq]
  omega

/-- A line base as a number. -/
theorem lineBase_toNat (t : Tag) (i : Index) : (lineBase t i).toNat = t.toNat * 64 + i.toNat * 8 := by
  have h : (t.setWidth 16 <<< 6) &&& (i.setWidth 16 <<< 3) = (0 : Addr) := by
    ext k hk; interval_cases k <;> simp
  rw [lineBase, ← BitVec.add_eq_or_of_and_eq_zero _ _ h]
  simp only [BitVec.toNat_add, BitVec.toNat_shiftLeft, BitVec.toNat_setWidth, Nat.shiftLeft_eq]
  omega
/-- An access that does not cross its line has both of its bytes at the offsets the fields give. -/
theorem offset_succ_toNat {off : Offset} (h : off ≠ 7) : (off + 1).toNat = off.toNat + 1 := by
  bv_omega

/-- The byte k of the block of an address lies in the address space. -/
theorem blockBase_add_lt (a : Addr) (k : Offset) : (addressFields a).blockBase.toNat + k.toNat < 65536 := by
  rw [addressFields_blockBase_toNat]; omega

/-- Distinct (tag, index) pairs have disjoint blocks (41_cache_controller.md R124). -/
theorem lineBase_disjoint {t u : Tag} {i j : Index} (h : t ≠ u ∨ i ≠ j) (k l : Offset) :
    (lineBase t i).toNat + k.toNat ≠ (lineBase u j).toNat + l.toNat := by
  rw [lineBase_toNat, lineBase_toNat]
  rw [ne_eq, ne_eq, ← BitVec.toNat_inj, ← BitVec.toNat_inj] at h
  omega

theorem blockBase_eq_lineBase_toNat (a : Addr) :
    (addressFields a).blockBase.toNat = (lineBase (addressFields a).tag (addressFields a).index).toNat := by
  rw [addressFields_blockBase_toNat, lineBase_toNat, addressFields_tag_toNat, addressFields_index_toNat]
  omega

end Sys2Proof.Machine
end

