-- ==== Sys2Proof/Laws/Memory.lean ====
section
/-! SUPPORT. Raw memory: what a read gives after a write, and that every operation keeps the canonical form. -/

namespace Sys2Proof.Machine

/-! ### Reading after writing -/

@[simp] theorem Memory.read_nil (a : Nat) : Memory.read [] a = unlistedByte := rfl

theorem Memory.read_erase (m : Memory) (a b : Nat) :
    Memory.read (Memory.erase a m) b = if b = a then unlistedByte else Memory.read m b := by
  induction m with
  | nil => simp [Memory.erase]
  | cons c m ih =>
    obtain ⟨k, v⟩ := c
    by_cases hk : k = a <;> by_cases hb : b = a <;> simp_all [Memory.erase, Memory.read]
    all_goals grind

theorem Memory.read_insert (m : Memory) (a b : Nat) (v : Byte) (h : ∀ c ∈ m, c.1 ≠ a) :
    Memory.read (Memory.insert a v m) b = if b = a then v else Memory.read m b := by
  induction m with
  | nil => simp [Memory.insert, Memory.read, eq_comm]
  | cons c m ih =>
    obtain ⟨k, w⟩ := c
    have ih' := ih fun c hc => h c (List.mem_cons_of_mem _ hc)
    have hk : k ≠ a := h (k, w) (List.mem_cons_self ..)
    unfold Memory.insert
    split <;> simp only [Memory.read, ih'] <;> grind

theorem Memory.mem_erase_ne (m : Memory) (a : Nat) : ∀ c ∈ Memory.erase a m, c.1 ≠ a := by
  induction m with
  | nil => simp [Memory.erase]
  | cons c m ih =>
    obtain ⟨k, v⟩ := c
    unfold Memory.erase
    split
    · exact ih
    · simpa using ⟨‹_›, fun x y h => ih (x, y) h⟩

/-- Everything a byte write does to reads, in any memory. -/
theorem Memory.read_write (m : Memory) (a b : Nat) (v : Byte) :
    Memory.read (Memory.write m a v) b = if b = a then v else Memory.read m b := by
  unfold Memory.write
  split
  · rw [Memory.read_erase]; simp_all
  · rw [Memory.read_insert _ _ _ _ (Memory.mem_erase_ne m a), Memory.read_erase]
    split <;> simp_all

/-- Everything a multi-byte write does to reads (20_memory.md R51). -/
theorem read_memWrite (bs : List Byte) (m : Memory) (a b : Nat) :
    Memory.read (memWrite m a bs) b = if h : a ≤ b ∧ b - a < bs.length then bs[b - a]'h.2 else Memory.read m b := by
  induction bs generalizing m a with
  | nil => simp [memWrite]
  | cons v bs ih =>
    rw [memWrite, ih, Memory.read_write]
    by_cases hb : b = a
    · subst hb; simp
    · by_cases hlt : a + 1 ≤ b
      · have e : b - a = (b - (a + 1)) + 1 := by omega
        simp only [e, List.getElem_cons_succ, List.length_cons]
        split <;> split <;> first | rfl | omega
      · have : ¬ (a ≤ b) := by omega
        simp [hlt, this, hb]

@[simp] theorem blockRead_getElem (m : Memory) (base : Addr) (k : Nat) (hk : k < 8) :
    (blockRead m base)[k] = Memory.read m (base.toNat + k) := by
  simp [blockRead]

/-- Everything a block write does to reads (20_memory.md R52). -/
theorem read_blockWrite (m : Memory) (base : Addr) (d : Block) (b : Nat) :
    Memory.read (blockWrite m base d) b =
      if h : base.toNat ≤ b ∧ b - base.toNat < 8 then d[b - base.toNat]'h.2 else Memory.read m b := by
  rw [blockWrite, read_memWrite]
  by_cases h : base.toNat ≤ b ∧ b - base.toNat < 8
  · simp [h]
  · have h' : ¬ (base.toNat ≤ b ∧ b - base.toNat < d.toList.length) := by simpa using h
    rw [dif_neg h, dif_neg h']

/-! ### The canonical form is kept -/

theorem Memory.wfFrom_cons (low k : Nat) (v : Byte) (m : Memory) :
    Memory.wfFrom low ((k, v) :: m) = true ↔
      low ≤ k ∧ k < Config.memBytes ∧ v ≠ unlistedByte ∧ Memory.wfFrom (k + 1) m = true := by
  simp [Memory.wfFrom, and_assoc]

theorem Memory.wfFrom_mono {low low' : Nat} (h : low' ≤ low) {m : Memory} (hm : Memory.wfFrom low m = true) :
    Memory.wfFrom low' m = true := by
  cases m with
  | nil => rfl
  | cons c m =>
    obtain ⟨k, v⟩ := c
    rw [Memory.wfFrom_cons] at hm ⊢
    exact ⟨by omega, hm.2⟩

theorem Memory.wfFrom_erase {m : Memory} {low : Nat} (a : Nat) (hm : Memory.wfFrom low m = true) :
    Memory.wfFrom low (Memory.erase a m) = true := by
  induction m generalizing low with
  | nil => rfl
  | cons c m ih =>
    obtain ⟨k, v⟩ := c
    rw [Memory.wfFrom_cons] at hm
    unfold Memory.erase
    split
    · exact Memory.wfFrom_mono (by omega) (ih hm.2.2.2)
    · exact (Memory.wfFrom_cons ..).2 ⟨hm.1, hm.2.1, hm.2.2.1, ih hm.2.2.2⟩

theorem Memory.wfFrom_insert {m : Memory} {low a : Nat} {b : Byte} (hm : Memory.wfFrom low m = true)
    (hne : ∀ c ∈ m, c.1 ≠ a) (hl : low ≤ a) (ha : a < Config.memBytes) (hb : b ≠ unlistedByte) :
    Memory.wfFrom low (Memory.insert a b m) = true := by
  induction m generalizing low with
  | nil => simpa [Memory.insert, Memory.wfFrom] using ⟨⟨hl, ha⟩, hb⟩
  | cons c m ih =>
    obtain ⟨k, v⟩ := c
    have hk : k ≠ a := hne (k, v) (List.mem_cons_self ..)
    have hm' := (Memory.wfFrom_cons ..).1 hm
    unfold Memory.insert
    split
    · exact (Memory.wfFrom_cons ..).2 ⟨hl, ha, hb, (Memory.wfFrom_cons ..).2 ⟨by omega, hm'.2⟩⟩
    · exact (Memory.wfFrom_cons ..).2
        ⟨hm'.1, hm'.2.1, hm'.2.2.1, ih hm'.2.2.2 (fun c hc => hne c (List.mem_cons_of_mem _ hc)) (by omega)⟩

/-- A byte write inside the address space keeps the canonical form. -/
theorem Memory.wf_write {m : Memory} {a : Nat} {b : Byte} (hm : Memory.wf m = true) (ha : a < Config.memBytes) :
    Memory.wf (Memory.write m a b) = true := by
  unfold Memory.write
  split
  · exact Memory.wfFrom_erase a hm
  · exact Memory.wfFrom_insert (Memory.wfFrom_erase a hm) (Memory.mem_erase_ne m a) (Nat.zero_le _) ha ‹_›

/-- A multi-byte write inside the address space keeps the canonical form. -/
theorem wf_memWrite {bs : List Byte} {m : Memory} {a : Nat} (hm : Memory.wf m = true)
    (ha : a + bs.length ≤ Config.memBytes) : Memory.wf (memWrite m a bs) = true := by
  induction bs generalizing m a with
  | nil => exact hm
  | cons b bs ih =>
    simp only [List.length_cons] at ha
    exact ih (Memory.wf_write hm (by omega)) (by omega)

/-- A write of a block at a multiple of 8 keeps the canonical form. -/
theorem wf_blockWrite {m : Memory} {base : Addr} {d : Block} (hm : Memory.wf m = true) (hb : base.toNat % 8 = 0) :
    Memory.wf (blockWrite m base d) = true := by
  refine wf_memWrite hm ?_
  have := base.isLt
  simp only [Vector.length_toList, Config.memBytes]
  omega

/-- The overlays of an image with no refused base keep the canonical form (20_memory.md R63). -/
theorem wf_applyOverlays {os : List Overlay} {m : Memory} (hm : Memory.wf m = true) (ho : firstMisaligned os = none) :
    Memory.wf (applyOverlays m os) = true := by
  induction os generalizing m with
  | nil => exact hm
  | cons o os ih =>
    unfold firstMisaligned at ho
    split at ho
    · cases ho
    · refine ih (wf_memWrite hm ?_) ho
      have h := ‹¬ o.misaligned = true›
      simp [Overlay.misaligned] at h
      simp; omega

/-- The memory of the reset state has the canonical form. -/
theorem wf_reset : Memory.wf State.reset.mem = true := rfl

end Sys2Proof.Machine
end

