-- ==== Sys2Proof/Laws/State.lean ====
section
/-! SUPPORT. One lemma per field per update of State, true by rfl, and the reading of a line or register after an update. -/

namespace Sys2Proof.Machine

variable (s : State)

/-! ### writeReg -/

@[simp] theorem State.writeReg_x (r : RegIndex) (v : Word) : (s.writeReg r v).x = s.x.set r.toNat v r.isLt := rfl
@[simp] theorem State.writeReg_mem (r : RegIndex) (v : Word) : (s.writeReg r v).mem = s.mem := rfl
@[simp] theorem State.writeReg_lines (r : RegIndex) (v : Word) : (s.writeReg r v).lines = s.lines := rfl
@[simp] theorem State.writeReg_rc (r : RegIndex) (v : Word) : (s.writeReg r v).rc = s.rc := rfl
@[simp] theorem State.writeReg_phase (r : RegIndex) (v : Word) : (s.writeReg r v).phase = s.phase := rfl
@[simp] theorem State.writeReg_fault (r : RegIndex) (v : Word) : (s.writeReg r v).fault = s.fault := rfl
@[simp] theorem State.writeReg_fsm (r : RegIndex) (v : Word) : (s.writeReg r v).fsm = s.fsm := rfl
@[simp] theorem State.writeReg_out (r : RegIndex) (v : Word) : (s.writeReg r v).out = s.out := rfl
@[simp] theorem State.writeReg_verbose (r : RegIndex) (v : Word) : (s.writeReg r v).verbose = s.verbose := rfl
@[simp] theorem State.writeReg_host (r : RegIndex) (v : Word) : (s.writeReg r v).host = s.host := rfl

/-! ### setLine -/

@[simp] theorem State.setLine_x (i : Index) (l : Line) : (s.setLine i l).x = s.x := rfl
@[simp] theorem State.setLine_mem (i : Index) (l : Line) : (s.setLine i l).mem = s.mem := rfl
@[simp] theorem State.setLine_lines (i : Index) (l : Line) : (s.setLine i l).lines = s.lines.set i.toNat l i.isLt := rfl
@[simp] theorem State.setLine_rc (i : Index) (l : Line) : (s.setLine i l).rc = s.rc := rfl
@[simp] theorem State.setLine_phase (i : Index) (l : Line) : (s.setLine i l).phase = s.phase := rfl
@[simp] theorem State.setLine_fault (i : Index) (l : Line) : (s.setLine i l).fault = s.fault := rfl
@[simp] theorem State.setLine_fsm (i : Index) (l : Line) : (s.setLine i l).fsm = s.fsm := rfl
@[simp] theorem State.setLine_out (i : Index) (l : Line) : (s.setLine i l).out = s.out := rfl
@[simp] theorem State.setLine_verbose (i : Index) (l : Line) : (s.setLine i l).verbose = s.verbose := rfl
@[simp] theorem State.setLine_host (i : Index) (l : Line) : (s.setLine i l).host = s.host := rfl

/-! ### emit -/

@[simp] theorem State.emit_x (e : Event) : (s.emit e).x = s.x := rfl
@[simp] theorem State.emit_mem (e : Event) : (s.emit e).mem = s.mem := rfl
@[simp] theorem State.emit_lines (e : Event) : (s.emit e).lines = s.lines := rfl
@[simp] theorem State.emit_rc (e : Event) : (s.emit e).rc = s.rc := rfl
@[simp] theorem State.emit_phase (e : Event) : (s.emit e).phase = s.phase := rfl
@[simp] theorem State.emit_fault (e : Event) : (s.emit e).fault = s.fault := rfl
@[simp] theorem State.emit_fsm (e : Event) : (s.emit e).fsm = s.fsm := rfl
@[simp] theorem State.emit_out (e : Event) : (s.emit e).out = s.out ++ [e] := rfl
@[simp] theorem State.emit_verbose (e : Event) : (s.emit e).verbose = s.verbose := rfl
@[simp] theorem State.emit_host (e : Event) : (s.emit e).host = s.host := rfl

/-! ### raise -/

@[simp] theorem State.raise_x (c : FaultCode) (info : FaultInfo) : (s.raise c info).x = s.x := rfl
@[simp] theorem State.raise_mem (c : FaultCode) (info : FaultInfo) : (s.raise c info).mem = s.mem := rfl
@[simp] theorem State.raise_lines (c : FaultCode) (info : FaultInfo) : (s.raise c info).lines = s.lines := rfl
@[simp] theorem State.raise_rc (c : FaultCode) (info : FaultInfo) : (s.raise c info).rc = s.rc := rfl
@[simp] theorem State.raise_phase (c : FaultCode) (info : FaultInfo) : (s.raise c info).phase = .faulted := rfl
@[simp] theorem State.raise_fault (c : FaultCode) (info : FaultInfo) : (s.raise c info).fault = some (s.fault.getD { code := c, rc := s.rc, info := info }) := rfl
@[simp] theorem State.raise_fsm (c : FaultCode) (info : FaultInfo) : (s.raise c info).fsm = .idle := rfl
@[simp] theorem State.raise_out (c : FaultCode) (info : FaultInfo) : (s.raise c info).out = s.out ++ [.fault (s.fault.getD { code := c, rc := s.rc, info := info })] := rfl
@[simp] theorem State.raise_verbose (c : FaultCode) (info : FaultInfo) : (s.raise c info).verbose = s.verbose := rfl
@[simp] theorem State.raise_host (c : FaultCode) (info : FaultInfo) : (s.raise c info).host = s.host := rfl

/-! ### withStream -/

@[simp] theorem State.withStream_x (rest : List Request) : (s.withStream rest).x = s.x := rfl
@[simp] theorem State.withStream_mem (rest : List Request) : (s.withStream rest).mem = s.mem := rfl
@[simp] theorem State.withStream_lines (rest : List Request) : (s.withStream rest).lines = s.lines := rfl
@[simp] theorem State.withStream_rc (rest : List Request) : (s.withStream rest).rc = s.rc := rfl
@[simp] theorem State.withStream_phase (rest : List Request) : (s.withStream rest).phase = s.phase := rfl
@[simp] theorem State.withStream_fault (rest : List Request) : (s.withStream rest).fault = s.fault := rfl
@[simp] theorem State.withStream_fsm (rest : List Request) : (s.withStream rest).fsm = s.fsm := rfl
@[simp] theorem State.withStream_out (rest : List Request) : (s.withStream rest).out = s.out := rfl
@[simp] theorem State.withStream_verbose (rest : List Request) : (s.withStream rest).verbose = s.verbose := rfl
@[simp] theorem State.withStream_host (rest : List Request) : (s.withStream rest).host = { s.host with stream := rest } := rfl

/-! ### withFsm -/

@[simp] theorem State.withFsm_x (m : Fsm) : (s.withFsm m).x = s.x := rfl
@[simp] theorem State.withFsm_mem (m : Fsm) : (s.withFsm m).mem = s.mem := rfl
@[simp] theorem State.withFsm_lines (m : Fsm) : (s.withFsm m).lines = s.lines := rfl
@[simp] theorem State.withFsm_rc (m : Fsm) : (s.withFsm m).rc = s.rc := rfl
@[simp] theorem State.withFsm_phase (m : Fsm) : (s.withFsm m).phase = s.phase := rfl
@[simp] theorem State.withFsm_fault (m : Fsm) : (s.withFsm m).fault = s.fault := rfl
@[simp] theorem State.withFsm_fsm (m : Fsm) : (s.withFsm m).fsm = m := rfl
@[simp] theorem State.withFsm_out (m : Fsm) : (s.withFsm m).out = s.out := rfl
@[simp] theorem State.withFsm_verbose (m : Fsm) : (s.withFsm m).verbose = s.verbose := rfl
@[simp] theorem State.withFsm_host (m : Fsm) : (s.withFsm m).host = s.host := rfl

/-! ### writeBack -/

@[simp] theorem writeBack_x (i : Index) : (writeBack s i).x = s.x := rfl
@[simp] theorem writeBack_mem (i : Index) : (writeBack s i).mem = blockWrite s.mem (lineBase (s.line i).tag i) (s.line i).data := rfl
@[simp] theorem writeBack_lines (i : Index) : (writeBack s i).lines = s.lines := rfl
@[simp] theorem writeBack_rc (i : Index) : (writeBack s i).rc = s.rc := rfl
@[simp] theorem writeBack_phase (i : Index) : (writeBack s i).phase = s.phase := rfl
@[simp] theorem writeBack_fault (i : Index) : (writeBack s i).fault = s.fault := rfl
@[simp] theorem writeBack_fsm (i : Index) : (writeBack s i).fsm = s.fsm := rfl
@[simp] theorem writeBack_out (i : Index) : (writeBack s i).out = s.out := rfl
@[simp] theorem writeBack_verbose (i : Index) : (writeBack s i).verbose = s.verbose := rfl
@[simp] theorem writeBack_host (i : Index) : (writeBack s i).host = s.host := rfl

/-! ### endOfStream -/

@[simp] theorem endOfStream_x : (endOfStream s).x = s.x := rfl
@[simp] theorem endOfStream_mem : (endOfStream s).mem = s.mem := rfl
@[simp] theorem endOfStream_lines : (endOfStream s).lines = s.lines := rfl
@[simp] theorem endOfStream_rc : (endOfStream s).rc = s.rc := rfl
@[simp] theorem endOfStream_phase : (endOfStream s).phase = .done := rfl
@[simp] theorem endOfStream_fault : (endOfStream s).fault = s.fault := rfl
@[simp] theorem endOfStream_fsm : (endOfStream s).fsm = s.fsm := rfl
@[simp] theorem endOfStream_out : (endOfStream s).out = s.out ++ [.snapshot s.snapshot] ++ [.ended] := rfl
@[simp] theorem endOfStream_verbose : (endOfStream s).verbose = s.verbose := rfl
@[simp] theorem endOfStream_host : (endOfStream s).host = s.host := rfl

/-! ### construct -/

section
variable (v : Bool) (h : HostInputs)

@[simp] theorem State.construct_x : (State.construct v h).x = Vector.replicate 16 0x0000 := rfl
@[simp] theorem State.construct_mem : (State.construct v h).mem = [] := rfl
@[simp] theorem State.construct_lines : (State.construct v h).lines = Vector.replicate 8 Line.reset := rfl
@[simp] theorem State.construct_rc : (State.construct v h).rc = 0 := rfl
@[simp] theorem State.construct_phase : (State.construct v h).phase = .launch := rfl
@[simp] theorem State.construct_fault : (State.construct v h).fault = none := rfl
@[simp] theorem State.construct_fsm : (State.construct v h).fsm = .idle := rfl
@[simp] theorem State.construct_out : (State.construct v h).out = [] := rfl
@[simp] theorem State.construct_verbose : (State.construct v h).verbose = v := rfl
@[simp] theorem State.construct_host : (State.construct v h).host = h := rfl

end

/-! ### verboseSnapshot: the history may grow by one snapshot, nothing else changes -/

@[simp] theorem State.verboseSnapshot_x : s.verboseSnapshot.x = s.x := by
  unfold State.verboseSnapshot; split <;> rfl

@[simp] theorem State.verboseSnapshot_mem : s.verboseSnapshot.mem = s.mem := by
  unfold State.verboseSnapshot; split <;> rfl

@[simp] theorem State.verboseSnapshot_lines : s.verboseSnapshot.lines = s.lines := by
  unfold State.verboseSnapshot; split <;> rfl

@[simp] theorem State.verboseSnapshot_rc : s.verboseSnapshot.rc = s.rc := by
  unfold State.verboseSnapshot; split <;> rfl

@[simp] theorem State.verboseSnapshot_phase : s.verboseSnapshot.phase = s.phase := by
  unfold State.verboseSnapshot; split <;> rfl

@[simp] theorem State.verboseSnapshot_fault : s.verboseSnapshot.fault = s.fault := by
  unfold State.verboseSnapshot; split <;> rfl

@[simp] theorem State.verboseSnapshot_fsm : s.verboseSnapshot.fsm = s.fsm := by
  unfold State.verboseSnapshot; split <;> rfl

@[simp] theorem State.verboseSnapshot_verbose : s.verboseSnapshot.verbose = s.verbose := by
  unfold State.verboseSnapshot; split <;> rfl

@[simp] theorem State.verboseSnapshot_host : s.verboseSnapshot.host = s.host := by
  unfold State.verboseSnapshot; split <;> rfl

theorem State.verboseSnapshot_out :
    s.verboseSnapshot.out = s.out ++ (if s.verbose then [.snapshot s.snapshot] else []) := by
  unfold State.verboseSnapshot; split <;> simp

/-! ### respond -/

@[simp] theorem respond_x (t : Trace) : (respond s t).x = s.x := by simp [respond]
@[simp] theorem respond_mem (t : Trace) : (respond s t).mem = s.mem := by simp [respond]
@[simp] theorem respond_lines (t : Trace) : (respond s t).lines = s.lines := by simp [respond]
@[simp] theorem respond_rc (t : Trace) : (respond s t).rc = s.rc + 1 := by simp [respond]
@[simp] theorem respond_phase (t : Trace) : (respond s t).phase = s.phase := by simp [respond]
@[simp] theorem respond_fault (t : Trace) : (respond s t).fault = s.fault := by simp [respond]
@[simp] theorem respond_fsm (t : Trace) : (respond s t).fsm = s.fsm := by simp [respond]
@[simp] theorem respond_verbose (t : Trace) : (respond s t).verbose = s.verbose := by simp [respond]
@[simp] theorem respond_host (t : Trace) : (respond s t).host = s.host := by simp [respond]

/-- A snapshot reads registers, lines and memory only. -/
theorem State.snapshot_congr {s t : State} (hx : s.x = t.x) (hl : s.lines = t.lines) (hm : s.mem = t.mem) :
    s.snapshot = t.snapshot := by
  simp [State.snapshot, hx, hl, hm]

/-- The events of one executed record: its Trace, then a snapshot of the state if VERBOSE. -/
theorem respond_out (t : Trace) :
    (respond s t).out = s.out ++ (.trace t :: if s.verbose then [.snapshot s.snapshot] else []) := by
  have h : (s.emit (.trace t)).snapshot = s.snapshot := rfl
  simp [respond, State.verboseSnapshot_out, h]

/-! ### Lines and registers read after an update -/

theorem State.line_eq_of_lines {s t : State} (h : s.lines = t.lines) (i : Index) : s.line i = t.line i := by
  simp [State.line, h]

theorem State.line_setLine (i j : Index) (l : Line) : (s.setLine i l).line j = if i = j then l else s.line j := by
  simp [State.line, Vector.getElem_set, BitVec.toNat_inj]

@[simp] theorem State.line_setLine_self (i : Index) (l : Line) : (s.setLine i l).line i = l := by
  simp [State.line_setLine]

theorem State.line_setLine_of_ne {i j : Index} (h : i ≠ j) (l : Line) : (s.setLine i l).line j = s.line j := by
  simp [State.line_setLine, h]

theorem State.readReg_writeReg (r q : RegIndex) (v : Word) :
    (s.writeReg r v).readReg q = if r = q then v else s.readReg q := by
  simp [State.readReg, Vector.getElem_set, BitVec.toNat_inj]

@[simp] theorem State.line_writeReg (r : RegIndex) (v : Word) (i : Index) : (s.writeReg r v).line i = s.line i := rfl
@[simp] theorem State.line_emit (e : Event) (i : Index) : (s.emit e).line i = s.line i := rfl
@[simp] theorem State.line_raise (c : FaultCode) (info : FaultInfo) (i : Index) : (s.raise c info).line i = s.line i := rfl
@[simp] theorem State.line_withStream (rest : List Request) (i : Index) : (s.withStream rest).line i = s.line i := rfl
@[simp] theorem State.line_withFsm (m : Fsm) (i : Index) : (s.withFsm m).line i = s.line i := rfl
@[simp] theorem writeBack_line (i j : Index) : (writeBack s i).line j = s.line j := rfl
@[simp] theorem endOfStream_line (i : Index) : (endOfStream s).line i = s.line i := rfl

@[simp] theorem respond_line (t : Trace) (i : Index) : (respond s t).line i = s.line i :=
  State.line_eq_of_lines (respond_lines s t) i

@[simp] theorem respond_readReg (t : Trace) (r : RegIndex) : (respond s t).readReg r = s.readReg r := by
  simp [State.readReg]

@[simp] theorem State.construct_line (v : Bool) (h : HostInputs) (i : Index) :
    (State.construct v h).line i = Line.reset := by
  simp [State.line]

@[simp] theorem State.lookup_withStream (rest : List Request) (i : Index) (t : Tag) :
    lookup (s.withStream rest) i t = lookup s i t := rfl

@[simp] theorem State.view_withStream (rest : List Request) (a : Addr) : (s.withStream rest).view a = s.view a := rfl

end Sys2Proof.Machine
end

