-- ==== Sys2Proof/Laws/Cache.lean ====
section
/-! SUPPORT. Everything the miss procedure and the lookup before an access can do: the line filled, the bytes of memory written
back, and what stays. -/

namespace Sys2Proof.Machine

variable (s : State)

theorem lookup_iff (i : Index) (t : Tag) : lookup s i t = true ↔ (s.line i).valid = true ∧ (s.line i).tag = t := by
  simp [lookup]

theorem lookup_congr {s t : State} {i : Index} (h : s.line i = t.line i) (g : Tag) : lookup s i g = lookup t i g := by
  simp [lookup, h]

/-- The evicted block's bytes after the miss procedure, when it is written back (41_cache_controller.md R123). -/
theorem missLine_read_evicted {i : Index} (hw : needsWriteBack s i = true) (t : Tag) (base : Addr) (k : Offset) :
    Memory.read (missLine s i t base).mem ((lineBase (s.line i).tag i).toNat + k.toNat) = blockByte (s.line i).data k := by
  have hk : k.toNat < 8 := k.isLt
  simp [missLine, fillLine, hw, read_blockWrite, blockByte, hk]

/-- Every other byte of raw memory is as before the miss procedure (41_cache_controller.md R134). -/
theorem missLine_read_other {i : Index} {b : Nat}
    (h : needsWriteBack s i = false ∨ ∀ k : Offset, b ≠ (lineBase (s.line i).tag i).toNat + k.toNat) (t : Tag) (base : Addr) :
    Memory.read (missLine s i t base).mem b = Memory.read s.mem b := by
  unfold missLine fillLine
  cases hw : needsWriteBack s i with
  | false => rfl
  | true =>
    have hb := h.resolve_left (by simp [hw])
    simp only [if_true, State.setLine_mem, writeBack_mem, read_blockWrite]
    rw [dif_neg]
    rintro ⟨h1, h2⟩
    refine hb (BitVec.ofNat 3 (b - (lineBase (s.line i).tag i).toNat)) ?_
    rw [BitVec.toNat_ofNat, Nat.mod_eq_of_lt h2]
    omega

theorem missLine_line_of_ne {i j : Index} (h : i ≠ j) (t : Tag) (base : Addr) : (missLine s i t base).line j = s.line j := by
  unfold missLine fillLine
  rw [State.line_setLine_of_ne _ h]
  split <;> rfl

theorem missLine_valid (i : Index) (t : Tag) (base : Addr) : ((missLine s i t base).line i).valid = true := by
  simp [missLine, fillLine]

theorem missLine_dirty (i : Index) (t : Tag) (base : Addr) : ((missLine s i t base).line i).dirty = false := by
  simp [missLine, fillLine]

theorem missLine_tag (i : Index) (t : Tag) (base : Addr) : ((missLine s i t base).line i).tag = t := by
  simp [missLine, fillLine]

/-- The block filled on a miss is what raw memory held before it, for the write-back touches another block
(41_cache_controller.md R124, R125). -/
theorem missLine_data {a : Addr} (hm : lookup s (addressFields a).index (addressFields a).tag = false) (k : Offset) :
    blockByte ((missLine s (addressFields a).index (addressFields a).tag (addressFields a).blockBase).line
        (addressFields a).index).data k =
      Memory.read s.mem ((addressFields a).blockBase.toNat + k.toNat) := by
  have hr := missLine_read_other s (i := (addressFields a).index)
    (b := (addressFields a).blockBase.toNat + k.toNat) ?_ (addressFields a).tag (addressFields a).blockBase
  · rw [← hr]
    simp [missLine, fillLine, blockByte]
  · cases hw : needsWriteBack s (addressFields a).index with
    | false => exact .inl rfl
    | true =>
      refine .inr fun l => ?_
      rw [blockBase_eq_lineBase_toNat]
      refine lineBase_disjoint (.inl fun h => ?_) k l
      simp only [needsWriteBack, Bool.and_eq_true] at hw
      simp [lookup, hw.1, h] at hm

@[simp] theorem missLine_x (i : Index) (t : Tag) (base : Addr) : (missLine s i t base).x = s.x := by
  unfold missLine fillLine; split <;> rfl

@[simp] theorem missLine_rc (i : Index) (t : Tag) (base : Addr) : (missLine s i t base).rc = s.rc := by
  unfold missLine fillLine; split <;> rfl

@[simp] theorem missLine_phase (i : Index) (t : Tag) (base : Addr) : (missLine s i t base).phase = s.phase := by
  unfold missLine fillLine; split <;> rfl

@[simp] theorem missLine_fault (i : Index) (t : Tag) (base : Addr) : (missLine s i t base).fault = s.fault := by
  unfold missLine fillLine; split <;> rfl

@[simp] theorem missLine_fsm (i : Index) (t : Tag) (base : Addr) : (missLine s i t base).fsm = s.fsm := by
  unfold missLine fillLine; split <;> rfl

@[simp] theorem missLine_out (i : Index) (t : Tag) (base : Addr) : (missLine s i t base).out = s.out := by
  unfold missLine fillLine; split <;> rfl

@[simp] theorem missLine_verbose (i : Index) (t : Tag) (base : Addr) : (missLine s i t base).verbose = s.verbose := by
  unfold missLine fillLine; split <;> rfl

@[simp] theorem missLine_host (i : Index) (t : Tag) (base : Addr) : (missLine s i t base).host = s.host := by
  unfold missLine fillLine; split <;> rfl

@[simp] theorem makeResident_x (f : AddressFields) : (makeResident s f).x = s.x := by
  unfold makeResident; split <;> simp

@[simp] theorem makeResident_rc (f : AddressFields) : (makeResident s f).rc = s.rc := by
  unfold makeResident; split <;> simp

@[simp] theorem makeResident_phase (f : AddressFields) : (makeResident s f).phase = s.phase := by
  unfold makeResident; split <;> simp

@[simp] theorem makeResident_fault (f : AddressFields) : (makeResident s f).fault = s.fault := by
  unfold makeResident; split <;> simp

@[simp] theorem makeResident_fsm (f : AddressFields) : (makeResident s f).fsm = s.fsm := by
  unfold makeResident; split <;> simp

@[simp] theorem makeResident_out (f : AddressFields) : (makeResident s f).out = s.out := by
  unfold makeResident; split <;> simp

@[simp] theorem makeResident_verbose (f : AddressFields) : (makeResident s f).verbose = s.verbose := by
  unfold makeResident; split <;> simp

@[simp] theorem makeResident_host (f : AddressFields) : (makeResident s f).host = s.host := by
  unfold makeResident; split <;> simp

theorem makeResident_hit {f : AddressFields} (h : lookup s f.index f.tag = true) : makeResident s f = s := by
  simp [makeResident, h]

theorem makeResident_miss {f : AddressFields} (h : lookup s f.index f.tag = false) :
    makeResident s f = missLine s f.index f.tag f.blockBase := by
  simp [makeResident, h]

@[simp] theorem makeResident_readReg (f : AddressFields) (r : RegIndex) : (makeResident s f).readReg r = s.readReg r := by
  simp [State.readReg]

theorem makeResident_line_of_ne {f : AddressFields} {j : Index} (h : f.index ≠ j) : (makeResident s f).line j = s.line j := by
  unfold makeResident
  split
  · rfl
  · exact missLine_line_of_ne s h _ _

/-- After the prelude the line is valid (42_load_store.md R160). -/
theorem makeResident_valid (f : AddressFields) : ((makeResident s f).line f.index).valid = true := by
  cases h : lookup s f.index f.tag with
  | true => rw [makeResident_hit s h]; exact ((lookup_iff ..).1 h).1
  | false => rw [makeResident_miss s h]; exact missLine_valid ..

/-- After the prelude the line holds the tag of the access (42_load_store.md R160). -/
theorem makeResident_tag (f : AddressFields) : ((makeResident s f).line f.index).tag = f.tag := by
  cases h : lookup s f.index f.tag with
  | true => rw [makeResident_hit s h]; exact ((lookup_iff ..).1 h).2
  | false => rw [makeResident_miss s h]; exact missLine_tag ..

/-- The dirty bit after the prelude: as before on a hit, clear on a miss (41_cache_controller.md R126, R128). -/
theorem makeResident_dirty (f : AddressFields) :
    ((makeResident s f).line f.index).dirty = (lookup s f.index f.tag && (s.line f.index).dirty) := by
  cases h : lookup s f.index f.tag with
  | true => rw [makeResident_hit s h, Bool.true_and]
  | false => rw [makeResident_miss s h, missLine_dirty, Bool.false_and]

/-- After the prelude byte k of the line is the coherent view of the byte at blockBase + k (42_load_store.md R160). -/
theorem makeResident_data (a : Addr) (k : Offset) :
    blockByte ((makeResident s (addressFields a)).line (addressFields a).index).data k =
      s.view (BitVec.ofNat 16 ((addressFields a).blockBase.toNat + k.toNat)) := by
  have hlt := blockBase_add_lt a k
  have hk := k.isLt
  have hb := addressFields_blockBase_toNat a
  have e : (BitVec.ofNat 16 ((addressFields a).blockBase.toNat + k.toNat)).toNat = (addressFields a).blockBase.toNat + k.toNat := by
    rw [BitVec.toNat_ofNat]; omega
  have hi : (addressFields (BitVec.ofNat 16 ((addressFields a).blockBase.toNat + k.toNat))).index = (addressFields a).index := by
    rw [← BitVec.toNat_inj, addressFields_index_toNat, addressFields_index_toNat, e]; omega
  have ht : (addressFields (BitVec.ofNat 16 ((addressFields a).blockBase.toNat + k.toNat))).tag = (addressFields a).tag := by
    rw [← BitVec.toNat_inj, addressFields_tag_toNat, addressFields_tag_toNat, e]; omega
  have ho : (addressFields (BitVec.ofNat 16 ((addressFields a).blockBase.toNat + k.toNat))).offset = k := by
    rw [← BitVec.toNat_inj, addressFields_offset_toNat, e]; omega
  simp only [State.view, hi, ht, ho, e]
  cases h : lookup s (addressFields a).index (addressFields a).tag with
  | true => rw [makeResident_hit s h, if_pos rfl]
  | false => rw [makeResident_miss s h, missLine_data s h, if_neg (by simp)]

end Sys2Proof.Machine
end

