-- ==== Sys2Proof/Laws/Exec.lean ====
section
/-! SUPPORT. Everything a presented record can do, said once (`exec_eq`, `exec_cases`), and everything a step can do (`step_cases`). -/

namespace Sys2Proof.Machine

/-- The decoded address of a record. -/
def Instr.fields (i : Instr) : AddressFields := addressFields (addrOperand i.addr)

/-- The outcome of a record's lookup, before any miss handling. -/
def recordHit (i : Instr) (s : State) : Bool := lookup s (Instr.fields i).index (Instr.fields i).tag

/-- The state after a record without a fault, both operations in one text (43_arbiter.md R192). -/
def executed (i : Instr) (s : State) : State :=
  let p := accessLine i (Instr.fields i) (makeResident s (Instr.fields i))
  respond p.1 (traceOf i (Instr.fields i) (recordHit i s) p.2)

/-- Everything `exec` can do: the record is not accepted, or it faults, or it is executed. -/
theorem exec_eq (i : Instr) (s : State) :
    exec i s =
      if s.accepting then
        match recordFault i with
        | some code => .next (s.raise code (.record i))
        | none => .next (executed i s)
      else .fault .recordNotAccepted := by
  cases i <;> simp only [exec, execLdr, execStr, prelude]
  all_goals
    cases s.accepting with
    | false => rfl
    | true =>
      cases h : recordFault _ with
      | some code => rfl
      | none => rfl

theorem accepting_iff (s : State) : s.accepting = true ↔ s.phase = .running ∧ s.fsm = .idle := by
  simp [State.accepting]

theorem exec_of_fault {i : Instr} {s : State} {code : FaultCode} (ha : s.accepting = true) (hf : recordFault i = some code) :
    exec i s = .next (s.raise code (.record i)) := by
  simp [exec_eq, ha, hf]

theorem exec_of_ok {i : Instr} {s : State} (ha : s.accepting = true) (hf : recordFault i = none) :
    exec i s = .next (executed i s) := by
  simp [exec_eq, ha, hf]

/-- A next state of `exec` is fault entry or the executed record, and the block was accepting. -/
theorem exec_cases {i : Instr} {s t : State} (h : exec i s = .next t) :
    s.accepting = true ∧
      ((∃ code, recordFault i = some code ∧ t = s.raise code (.record i)) ∨ (recordFault i = none ∧ t = executed i s)) := by
  rw [exec_eq] at h
  split at h
  · refine ⟨‹_›, ?_⟩
    split at h
    · exact .inl ⟨_, ‹_›, by cases h; rfl⟩
    · exact .inr ⟨‹_›, by cases h; rfl⟩
  · cases h

/-- The conditions under which a record does not fault (42_load_store.md R160). -/
theorem recordFault_eq_none {i : Instr} :
    recordFault i = none ↔ i.reg ≤ 15 ∧ i.addr ≤ 0xFFFF ∧ (Instr.fields i).offset ≠ 7 := by
  unfold recordFault Instr.fields
  split
  · simp; omega
  · split
    · simp; omega
    · split <;> simp_all

/-! ### The executed record, field by field -/

section
variable (i : Instr) (s : State)

@[simp] theorem executed_rc : (executed i s).rc = s.rc + 1 := by
  cases i <;> simp [executed, accessLine, storeToLine]

@[simp] theorem executed_phase : (executed i s).phase = s.phase := by
  cases i <;> simp [executed, accessLine, storeToLine]

@[simp] theorem executed_fault : (executed i s).fault = s.fault := by
  cases i <;> simp [executed, accessLine, storeToLine]

@[simp] theorem executed_fsm : (executed i s).fsm = s.fsm := by
  cases i <;> simp [executed, accessLine, storeToLine]

@[simp] theorem executed_verbose : (executed i s).verbose = s.verbose := by
  cases i <;> simp [executed, accessLine, storeToLine]

@[simp] theorem executed_host : (executed i s).host = s.host := by
  cases i <;> simp [executed, accessLine, storeToLine]

@[simp] theorem executed_mem : (executed i s).mem = (makeResident s (Instr.fields i)).mem := by
  cases i <;> simp [executed, accessLine, storeToLine]

/-- No line but the one of the record's index changes (41_cache_controller.md R121). -/
theorem executed_line_of_ne {j : Index} (h : (Instr.fields i).index ≠ j) : (executed i s).line j = s.line j := by
  cases i <;> simp [executed, accessLine, storeToLine, State.line_setLine_of_ne _ h, makeResident_line_of_ne s h]

theorem executed_valid : ((executed i s).line (Instr.fields i).index).valid = true := by
  cases i <;> simp [executed, accessLine, storeToLine, makeResident_valid]

theorem executed_tag : ((executed i s).line (Instr.fields i).index).tag = (Instr.fields i).tag := by
  cases i <;> simp [executed, accessLine, storeToLine, makeResident_tag]

/-- The events of the record (43_arbiter.md R192), the snapshot being that of the state after it. -/
theorem executed_out :
    (executed i s).out = s.out ++
      (.trace (traceOf i (Instr.fields i) (recordHit i s) (accessLine i (Instr.fields i) (makeResident s (Instr.fields i))).2)
        :: if s.verbose then [.snapshot (executed i s).snapshot] else []) := by
  have h : (executed i s).snapshot =
      (accessLine i (Instr.fields i) (makeResident s (Instr.fields i))).1.snapshot :=
    State.snapshot_congr (by simp [executed]) (by simp [executed]) (by simp [executed])
  rw [h]
  simp only [executed, respond_out]
  cases i <;> simp [accessLine, storeToLine]

end

section
variable (r a : Nat) (s : State)

theorem executed_ldr_x :
    (executed (.ldr r a) s).x = s.x.set (regOperand r).toNat
      (loadPair ((makeResident s (Instr.fields (.ldr r a))).line (Instr.fields (.ldr r a)).index).data
        (Instr.fields (.ldr r a)).offset) (regOperand r).isLt := by
  simp [executed, accessLine]

theorem executed_ldr_line (j : Index) :
    (executed (.ldr r a) s).line j = (makeResident s (Instr.fields (.ldr r a))).line j := by
  simp [executed, accessLine]

theorem executed_str_x : (executed (.str r a) s).x = s.x := by
  simp [executed, accessLine, storeToLine]

theorem executed_str_line :
    (executed (.str r a) s).line (Instr.fields (.str r a)).index =
      { (makeResident s (Instr.fields (.str r a))).line (Instr.fields (.str r a)).index with
        data := storePair ((makeResident s (Instr.fields (.str r a))).line (Instr.fields (.str r a)).index).data
          (Instr.fields (.str r a)).offset (s.readReg (regOperand r))
        dirty := true } := by
  simp [executed, accessLine, storeToLine]

end

/-! ### The bytes a store leaves in a block -/

theorem blockByte_setBlockByte (d : Block) (off k : Offset) (b : Byte) :
    blockByte (setBlockByte d off b) k = if off = k then b else blockByte d k := by
  simp [blockByte, setBlockByte, Vector.getElem_set, BitVec.toNat_inj]

theorem blockByte_storePair (d : Block) (off k : Offset) (v : Word) :
    blockByte (storePair d off v) k =
      if k = off + 1 then highByte v else if k = off then lowByte v else blockByte d k := by
  simp [storePair, blockByte_setBlockByte, eq_comm]

theorem combineBytes_low_high (v : Word) : combineBytes (lowByte v) (highByte v) = v := by
  unfold combineBytes lowByte highByte
  ext k hk
  interval_cases k <;> simp

/-! ### Steps -/

/-- Everything a step can do. -/
theorem step_cases {s t : State} (h : step s = .next t) :
    (s.phase = .launch ∧ t = launch s) ∨
    (∃ req rest, s.phase = .running ∧ s.host.stream = req :: rest ∧ exec (fetchRecord req) (s.withStream rest) = .next t) ∨
    (s.phase = .running ∧ s.host.stream = [] ∧ s.host.streamEnds = true ∧ t = endOfStream s) := by
  unfold step at h
  split at h
  · exact .inl ⟨‹_›, by cases h; rfl⟩
  · split at h
    · exact .inr (.inl ⟨_, _, ‹_›, ‹_›, h⟩)
    · split at h
      · exact .inr (.inr ⟨‹_›, ‹_›, ‹_›, by cases h; rfl⟩)
      · cases h
  all_goals cases h

/-- Everything the launch can do (43_arbiter.md R196). -/
theorem launch_cases (s : State) :
    (s.host.sourceReadable = false ∧ launch s = { s with phase := .aborted }) ∨
    (∃ base, s.host.sourceReadable = true ∧ firstMisaligned (imageOverlays s.host.image) = some base ∧
      launch s = s.raise .imageMisaligned (.overlayBase base)) ∨
    (s.host.sourceReadable = true ∧ firstMisaligned (imageOverlays s.host.image) = none ∧ launch s = startRun s) := by
  unfold launch
  cases hr : s.host.sourceReadable with
  | false => exact .inl ⟨rfl, by simp⟩
  | true =>
    cases hf : firstMisaligned (imageOverlays s.host.image) with
    | some base => exact .inr (.inl ⟨base, rfl, rfl, by simp⟩)
    | none => exact .inr (.inr ⟨rfl, rfl, by simp⟩)

/-! ### The preloads and the start of a run -/

@[simp] theorem applyPreloads_mem (ps : List Preload) (s : State) : (applyPreloads s ps).mem = s.mem := by
  induction ps generalizing s with
  | nil => rfl
  | cons p ps ih => simp [applyPreloads, ih]

@[simp] theorem applyPreloads_lines (ps : List Preload) (s : State) : (applyPreloads s ps).lines = s.lines := by
  induction ps generalizing s with
  | nil => rfl
  | cons p ps ih => simp [applyPreloads, ih]

@[simp] theorem applyPreloads_rc (ps : List Preload) (s : State) : (applyPreloads s ps).rc = s.rc := by
  induction ps generalizing s with
  | nil => rfl
  | cons p ps ih => simp [applyPreloads, ih]

@[simp] theorem applyPreloads_phase (ps : List Preload) (s : State) : (applyPreloads s ps).phase = s.phase := by
  induction ps generalizing s with
  | nil => rfl
  | cons p ps ih => simp [applyPreloads, ih]

@[simp] theorem applyPreloads_fault (ps : List Preload) (s : State) : (applyPreloads s ps).fault = s.fault := by
  induction ps generalizing s with
  | nil => rfl
  | cons p ps ih => simp [applyPreloads, ih]

@[simp] theorem applyPreloads_fsm (ps : List Preload) (s : State) : (applyPreloads s ps).fsm = s.fsm := by
  induction ps generalizing s with
  | nil => rfl
  | cons p ps ih => simp [applyPreloads, ih]

@[simp] theorem applyPreloads_out (ps : List Preload) (s : State) : (applyPreloads s ps).out = s.out := by
  induction ps generalizing s with
  | nil => rfl
  | cons p ps ih => simp [applyPreloads, ih]

@[simp] theorem applyPreloads_verbose (ps : List Preload) (s : State) : (applyPreloads s ps).verbose = s.verbose := by
  induction ps generalizing s with
  | nil => rfl
  | cons p ps ih => simp [applyPreloads, ih]

@[simp] theorem applyPreloads_host (ps : List Preload) (s : State) : (applyPreloads s ps).host = s.host := by
  induction ps generalizing s with
  | nil => rfl
  | cons p ps ih => simp [applyPreloads, ih]

/-- Preloads write registers from registers: nothing else of the state matters. -/
theorem applyPreloads_x_congr (ps : List Preload) {s t : State} (h : s.x = t.x) :
    (applyPreloads s ps).x = (applyPreloads t ps).x := by
  induction ps generalizing s t with
  | nil => exact h
  | cons p ps ih => exact ih (by simp [h])

@[simp] theorem startRun_x (s : State) : (startRun s).x = (applyPreloads s s.host.preloads).x := by
  simp only [startRun, State.verboseSnapshot_x]
  exact applyPreloads_x_congr _ rfl

@[simp] theorem startRun_mem (s : State) : (startRun s).mem = applyOverlays s.mem (imageOverlays s.host.image) := by simp [startRun]

@[simp] theorem startRun_lines (s : State) : (startRun s).lines = s.lines := by simp [startRun]

@[simp] theorem startRun_rc (s : State) : (startRun s).rc = s.rc := by simp [startRun]

@[simp] theorem startRun_phase (s : State) : (startRun s).phase = .running := by simp [startRun]

@[simp] theorem startRun_fault (s : State) : (startRun s).fault = s.fault := by simp [startRun]

@[simp] theorem startRun_fsm (s : State) : (startRun s).fsm = s.fsm := by simp [startRun]

@[simp] theorem startRun_verbose (s : State) : (startRun s).verbose = s.verbose := by simp [startRun]

@[simp] theorem startRun_host (s : State) : (startRun s).host = s.host := by simp [startRun]

theorem startRun_out (s : State) :
    (startRun s).out = s.out ++ (if s.verbose then [.snapshot (startRun s).snapshot] else []) := by
  have e : (startRun s).snapshot =
      (applyPreloads { s with mem := applyOverlays s.mem (imageOverlays s.host.image) } s.host.preloads).snapshot :=
    State.snapshot_congr (by simp [startRun]) (by simp [startRun]) (by simp [startRun])
  rw [e]
  simp [startRun, State.verboseSnapshot_out]

end Sys2Proof.Machine
end

