-- ==== Sys2Proof/Laws/Launch.lean ====
section
/-! SUPPORT. What the launch reads from the host: legal overlays, the bytes an image puts in memory, the values the preloads leave. -/

namespace Sys2Proof.Machine

/-- An overlay that the check lets through is one with a legal base (20_memory.md R63). -/
theorem Overlay.misaligned_eq_false (o : Overlay) : o.misaligned = false ↔ LegalBase o := by
  unfold Overlay.misaligned LegalBase; simp

/-- The check finds nothing exactly when every base is legal. -/
theorem firstMisaligned_eq_none {os : List Overlay} : firstMisaligned os = none ↔ ∀ o ∈ os, LegalBase o := by
  induction os with
  | nil => simp [firstMisaligned]
  | cons o os ih =>
    unfold firstMisaligned
    cases h : o.misaligned with
    | true => simp; intro hl; rw [(Overlay.misaligned_eq_false o).2 hl] at h; cases h
    | false => simp [ih, (Overlay.misaligned_eq_false o).1 h]

/-- The check finds the first overlay with an illegal base. -/
theorem firstMisaligned_eq_some (l : List Overlay) (o : Overlay) (r : List Overlay) (h : ∀ p ∈ l, LegalBase p)
    (ho : ¬ LegalBase o) : firstMisaligned (l ++ o :: r) = some o.base := by
  induction l with
  | nil =>
    have : o.misaligned = true := by rw [← Bool.not_eq_false, Overlay.misaligned_eq_false]; exact ho
    simp [firstMisaligned, this]
  | cons p l ih =>
    have := (Overlay.misaligned_eq_false p).2 (h p (List.mem_cons_self ..))
    simp [firstMisaligned, this]
    exact ih fun q hq => h q (List.mem_cons_of_mem _ hq)

/-- A byte after all overlays: that of the last overlay that covers it, else as before. -/
theorem read_applyOverlays (os : List Overlay) (m : Memory) (a : Nat) :
    Memory.read (applyOverlays m os) a =
      match os.reverse.find? (fun o => decide (o.base ≤ a ∧ a < o.base + 16)) with
      | some o => o.bytes.toList.getD (a - o.base) 0
      | none => Memory.read m a := by
  induction os generalizing m with
  | nil => simp [applyOverlays]
  | cons o os ih =>
    rw [applyOverlays, ih, List.reverse_cons, List.find?_append]
    cases h : os.reverse.find? (fun o => decide (o.base ≤ a ∧ a < o.base + 16)) with
    | some p => simp
    | none =>
      simp only [Option.none_or, read_memWrite]
      by_cases c : o.base ≤ a ∧ a < o.base + 16
      · have c' : o.base ≤ a ∧ a - o.base < o.bytes.toList.length := by simp; omega
        rw [dif_pos c']
        simp only [List.find?_cons, c, and_self, decide_true]
        rw [List.getD_eq_getElem?_getD, List.getElem?_eq_getElem c'.2]; rfl
      · have c' : ¬ (o.base ≤ a ∧ a - o.base < o.bytes.toList.length) := by simp; omega
        rw [dif_neg c']
        simp only [List.find?_cons, decide_eq_false c, List.find?_nil]

/-- A register after all preloads: the value of the last preload that names it, else as before. -/
theorem readReg_applyPreloads (ps : List Preload) (s : State) (r : RegIndex) :
    (applyPreloads s ps).readReg r =
      match ps.reverse.find? (fun p => decide (p.reg = r)) with
      | some p => p.value
      | none => s.readReg r := by
  induction ps generalizing s with
  | nil => rfl
  | cons p ps ih =>
    rw [applyPreloads, ih, List.reverse_cons, List.find?_append]
    cases h : ps.reverse.find? (fun p => decide (p.reg = r)) with
    | some p => simp
    | none =>
      simp only [Option.none_or, State.readReg_writeReg]
      by_cases c : p.reg = r <;> simp [c]

end Sys2Proof.Machine
end

