-- ==== Sys2Proof/Laws/PerInstr.lean ====
section
/-! SUPPORT. Statements made instruction by instruction, one lemma per constructor. -/

namespace Sys2Proof.Laws.EncodesInItsRow

/-- The request word of a record matches its own row of the opcode map under the row's mask (30_encoding.md R87). -/
def Statement (i : Instr) : Prop := encode i &&& opMask = opMatch i.op

theorem reg_below_op (r : RegIndex) : (r.setWidth 21 <<< 16) &&& opMask = 0 := by
  revert r; decide

theorem addr_below_op (a : Addr) : a.setWidth 21 &&& opMask = 0 := by
  apply BitVec.eq_of_toNat_eq
  have e : a.toNat &&& 2 ^ 20 = 0 := by
    rw [Nat.and_two_pow, Nat.testBit_lt_two_pow (by omega)]; rfl
  have w : a.toNat % 2 ^ 21 = a.toNat := by omega
  rw [BitVec.toNat_and, BitVec.toNat_setWidth, w]
  exact e

/-- Bit 20 of a word `{op, reg, addr}` is that of `op`: the operands lie below it. -/
theorem of_op (op : Op) (r : RegIndex) (a : Addr) :
    (opMatch op ||| (r.setWidth 21 <<< 16) ||| a.setWidth 21) &&& opMask = opMatch op := by
  rw [BitVec.and_or_distrib_right, BitVec.and_or_distrib_right, reg_below_op, addr_below_op]
  cases op <;> decide

theorem ldr (r a : Nat) : Statement (.ldr r a) := of_op .ldr _ _

theorem str (r a : Nat) : Statement (.str r a) := of_op .str _ _

end Sys2Proof.Laws.EncodesInItsRow
end

