-- ==== Sys2Proof/Laws/Records.lean ====
section
/-! SUPPORT. A record that runs, in the statements' terms and in the step's; the two bytes it reads through its line; that making a
line resident keeps memory canonical. -/

namespace Sys2Proof.Machine

/-- The premise of a run is that the block accepts the record and the record meets no fault condition. -/
theorem runsRecord_iff {i : Instr} {s : State} : RunsRecord i s ↔ s.accepting = true ∧ recordFault i = none := by
  rw [accepting_iff, recordFault_eq_none]
  unfold RunsRecord
  have : (i.addr ≤ 0xFFFF → ((Instr.fields i).offset ≠ 7 ↔ i.addr % 8 ≠ 7)) := by
    intro h
    rw [ne_eq, ← BitVec.toNat_inj, Instr.fields, addressFields_offset_toNat]
    simp [addrOperand]
  constructor
  · rintro ⟨a, b, c, d, e⟩; exact ⟨⟨a, b⟩, c, d, (this d).2 e⟩
  · rintro ⟨⟨a, b⟩, c, d, e⟩; exact ⟨a, b, c, d, (this d).1 e⟩

/-- The byte of the resident line at the access's offset is the coherent byte at its address. -/
theorem resident_byte {a : Nat} (ha : a ≤ 0xFFFF) (s : State) :
    blockByte ((makeResident s (addressFields (addrOperand a))).line (addressFields (addrOperand a)).index).data
        (addressFields (addrOperand a)).offset =
      s.view (BitVec.ofNat 16 a) := by
  rw [makeResident_data, addressFields_blockBase_toNat, addressFields_offset_toNat]
  congr 2; simp [addrOperand]; omega

/-- The next byte of the resident line is the coherent byte at the next address. -/
theorem resident_succ_byte {a : Nat} (ha : a ≤ 0xFFFF) (ho : (addressFields (addrOperand a)).offset ≠ 7) (s : State) :
    blockByte ((makeResident s (addressFields (addrOperand a))).line (addressFields (addrOperand a)).index).data
        ((addressFields (addrOperand a)).offset + 1) =
      s.view (BitVec.ofNat 16 (a + 1)) := by
  rw [makeResident_data, addressFields_blockBase_toNat, offset_succ_toNat ho, addressFields_offset_toNat]
  congr 2; simp [addrOperand]; omega

/-- A byte of a block addressed through numbers, or through bit vectors. -/
theorem blockBase_add (a : Addr) (k : Offset) :
    BitVec.ofNat 16 ((addressFields a).blockBase.toNat + k.toNat) =
      (addressFields a).blockBase + k.setWidth 16 := by
  have := blockBase_add_lt a k
  apply BitVec.eq_of_toNat_eq
  rw [BitVec.toNat_add, BitVec.toNat_setWidth, BitVec.toNat_ofNat]
  congr 1
  have := k.isLt
  omega

/-- An address is its line's base and its offset. -/
theorem toNat_eq_lineBase_add_offset (b : Addr) :
    b.toNat = (lineBase (addressFields b).tag (addressFields b).index).toNat + (addressFields b).offset.toNat := by
  rw [← blockBase_eq_lineBase_toNat, addressFields_blockBase_toNat, addressFields_offset_toNat]; omega

/-- Making a line resident keeps memory canonical. -/
theorem wf_makeResident {s : State} (a : Addr) (h : Memory.wf s.mem = true) :
    Memory.wf (makeResident s (addressFields a)).mem = true := by
  cases hl : lookup s (addressFields a).index (addressFields a).tag with
  | true => rwa [makeResident_hit s hl]
  | false =>
    rw [makeResident_miss s hl, missLine, fillLine, State.setLine_mem]
    split
    · rw [writeBack_mem]; apply wf_blockWrite h; rw [lineBase_toNat]; omega
    · exact h

/-- The events of one record more. -/
theorem runEvents_succ (v : Bool) (n : Nat) :
    runEvents v (n + 1) = runEvents v n ++ (if v then [EventKind.trace, .snapshot] else [.trace]) := by
  simp [runEvents, List.replicate_succ']

end Sys2Proof.Machine
end

