-- ==== Sys2Proof/Laws/Run.lean ====
section
/-! SUPPORT. Runs of many steps: how one unfolds, and the induction over them, once. -/

namespace Sys2Proof.Machine

theorem run_zero (s : State) : core.run 0 s = .next s := rfl

/-- A run of one step more than a next state takes. -/
theorem run_succ_of_next {s u : State} (h : step s = .next u) (k : Nat) : core.run (k + 1) s = core.run k u := by
  have unfolded : ∀ (M : Host.Core) (s u : M.State), M.step s = .next u → M.run (k + 1) s = M.run k u := by
    intro M s u h
    rw [Host.Core.run, h]
  exact unfolded core s u h

/-- A run that ends in a next state goes through a next state of its first step. -/
theorem run_succ_cases {k : Nat} {s t : State} (h : core.run (k + 1) s = .next t) :
    ∃ u, step s = .next u ∧ core.run k u = .next t := by
  have unfolded : ∀ (M : Host.Core) (s t : M.State), M.run (k + 1) s = .next t →
      ∃ u, M.step s = .next u ∧ M.run k u = .next t := by
    intro M s t h
    rw [Host.Core.run] at h
    cases hs : M.step s with
    | next u => rw [hs] at h; exact ⟨u, rfl, h⟩
    | fault r => rw [hs] at h; cases h
    | refused r => rw [hs] at h; cases h
  exact unfolded core s t h

/-- What every step keeps holds after every run. -/
theorem run_keeps {P : State → Prop} (hstep : ∀ s t, P s → step s = .next t → P t) {k : Nat} {s t : State} (hs : P s)
    (h : core.run k s = .next t) : P t := by
  induction k generalizing s with
  | zero => cases h; exact hs
  | succ k ih =>
    obtain ⟨u, hu, hr⟩ := run_succ_cases h
    exact ih (hstep s u hs hu) hr

end Sys2Proof.Machine
end

