-- ==== Sys2Proof/Laws/Text.lean ====
section
/-! SUPPORT. Hexadecimal text: its length, that a digit reads back, that the text of a number determines it. -/

namespace Sys2Proof.Machine

theorem hexDigit_hexChar : ∀ d : Fin 16, hexDigit (hexChar d.val) = some d.val ∧ isBlank (hexChar d.val) = false := by decide

theorem hexDigit_hexChar_of_lt (d : Nat) (h : d < 16) : hexDigit (hexChar d) = some d := (hexDigit_hexChar ⟨d, h⟩).1

theorem isBlank_hexChar_of_lt (d : Nat) (h : d < 16) : isBlank (hexChar d) = false := (hexDigit_hexChar ⟨d, h⟩).2

@[simp] theorem hexText_length (w n : Nat) : (hexText w n).length = w := by
  induction w generalizing n with
  | zero => rfl
  | succ w ih => simp [hexText, ih]

theorem hexChar_inj (a b : Nat) (ha : a < 16) (hb : b < 16) (h : hexChar a = hexChar b) : a = b := by
  have h1 := hexDigit_hexChar_of_lt a ha
  rw [h, hexDigit_hexChar_of_lt b hb] at h1
  simpa using h1.symm

theorem hexText_inj (w a b : Nat) (ha : a < 16 ^ w) (hb : b < 16 ^ w) (h : hexText w a = hexText w b) : a = b := by
  induction w generalizing a b with
  | zero => simp at ha hb; omega
  | succ w ih =>
    simp only [hexText] at h
    have h' := List.append_inj' h rfl
    rw [pow_succ] at ha hb
    have := ih (a/16) (b/16) (by omega) (by omega) h'.1
    have := hexChar_inj (a%16) (b%16) (by omega) (by omega) (by simpa using h'.2)
    omega

end Sys2Proof.Machine
end

