-- ==== Sys2Proof/Tests/Slice0.lean ====
section
/-! SUPPORT. Tests against the vectors of 95_test_vectors.md, and for each statement that has hypotheses a witness that meets them. -/

open Sys2Proof Sys2Proof.Machine

namespace Sys2Proof.Tests

/-! ### Well-formedness -/

/-- Also the hypothesis of DecodeEncodeIsIdentity, RequestWordLayout, RecordTextReadsBack and ALoadedWordIsRunByTheNextStep. -/
theorem test_wellFormed_bounds : WellFormed (.ldr 0 0x0000) ∧ WellFormed (.str 15 0xFFFF) := by decide

theorem test_illFormed_register : ¬ WellFormed (.ldr 16 0x0000) := by decide

theorem test_illFormed_address : ¬ WellFormed (.str 0 0x10000) := by decide

/-! ### Request words, written out from 95_test_vectors.md section 7.1 -/

theorem test_decode_ldr : decode 0b000100000000000010000 = .ldr 2 0x0010 := by decide

theorem test_decode_str : decode 0b111111111111111111110 = .str 15 0xFFFE := by decide

theorem test_encode : encode (.str 1 0x0010) = 0x110010 ∧ encode (.ldr 15 0xFFFF) = 0x0FFFFF := by decide

theorem test_decodeNumber_bound :
    decodeNumber 0x1FFFFE = .ok (.str 15 0xFFFE) ∧ decodeNumber 0x200000 = .error .widerThanRequestWord := by
  constructor <;> rfl

theorem test_decodeTableWord :
    decodeTableWord 24 0x000000 = some (.ldr 0 0) ∧ decodeTableWord 24 0x100000 = some (.str 0 0)
      ∧ decodeTableWord 24 0x200000 = none := by decide

/-! ### Record text, section 7.2 -/

/-- The line `  STR   1` tab `0010 `. -/
def spacedLine : List Char := [' ', ' ', 'S', 'T', 'R', ' ', ' ', ' ', '1', '\t', '0', '0', '1', '0', ' ']

theorem test_parse_spaced : parseLine spacedLine = some (.str 1 0x0010) := by decide

theorem test_parse_either_case :
    parseLine ['L', 'D', 'R', ' ', 'a', ' ', 'f', 'F', 'e', 'e'] = some (.ldr 10 0xFFEE) := by decide

theorem test_parse_out_of_range :
    parseLine ['L', 'D', 'R', ' ', '1', '0', ' ', '1', '0', '0', '0', '0'] = some (.ldr 16 0x10000) := by decide

theorem test_parse_malformed :
    parseLine ['l', 'd', 'r', ' ', '0', ' ', '0'] = none ∧ parseLine ['L', 'D', 'R', ' ', '0', ',', ' ', '0'] = none
      ∧ parseLine ['L', 'D', 'R', ' ', '0', ' ', '0', 'x', '1'] = none ∧ parseLine ['L', 'D', 'R', ' ', '0'] = none
      ∧ parseLine ['N', 'O', 'P'] = none ∧ parseLine [] = none := by decide

theorem test_recordText : recordText (.ldr 10 0x003E) = ['L', 'D', 'R', ' ', 'A', ' ', '0', '0', '3', 'E'] := by decide

/-! ### The address decoder, section 2 -/

theorem test_addressFields_ABCD :
    addressFields 0xABCD = { offset := 5, index := 1, tag := 0x2AF, blockBase := 0xABC8 } ∧ lineBase 0x2AF 1 = 0xABC8 := by decide

theorem test_addressFields_top :
    addressFields 0xFFFF = { offset := 7, index := 7, tag := 0x3FF, blockBase := 0xFFF8 } := by decide

/-- The audit of the literals (00_scope.md R7). -/
theorem test_literals :
    2 ^ 3 = Config.blockBytes ∧ 2 ^ 3 = Config.numLines ∧ 2 ^ 4 = Config.numRegs ∧ 2 ^ (10 + 3 + 3) = Config.memBytes
      ∧ 8 * 16 = Config.snapshotMemBytes ∧ Config.maxOverlayBase + Config.overlayBytes = Config.memBytes := by decide

/-! ### States for the tests -/

/-- Bytes A0 to AF at 0x0040. -/
def imageMem : Memory :=
  memWrite [] 0x0040 [0xA0, 0xA1, 0xA2, 0xA3, 0xA4, 0xA5, 0xA6, 0xA7, 0xA8, 0xA9, 0xAA, 0xAB, 0xAC, 0xAD, 0xAE, 0xAF]

/-- Running, after no record, with x[1] = 1234, x[2] = 5678 and the image of section 5.2; the given records are still to come. -/
def cold (stream : List Instr) : State :=
  { State.reset with
    phase := .running
    x := (State.reset.x.set 1 0x1234).set 2 0x5678
    mem := imageMem
    host := { HostInputs.nothing with stream := stream.map .record, streamEnds := true } }

/-- Line 0 after S5: dirty, tag 0. -/
def dirtyLine : Line := { valid := true, dirty := true, tag := 0x000, data := #v[0x34, 0x12, 0, 0, 0, 0, 0, 0] }

/-- The trace record of S5. -/
def traceS5 : Trace :=
  { op := .str, reg := 1, addr := 0x0000, tag := 0x000, index := 0, offset := 0, hit := false, value := 0x1234 }

/-- The state after S5, with the given records still to come. -/
def warm (stream : List Instr) : State :=
  { cold stream with lines := (cold stream).lines.set 0 dirtyLine, rc := 1, out := [.trace traceS5] }

/-- An overlay of sixteen equal bytes. -/
def overlay (base : Nat) (b : Byte) : Overlay := { base := base, bytes := Vector.replicate 16 b }

/-- A host with an image, preloads and records, whose stream ends. -/
def hostOf (image : Image) (preloads : List Preload) (stream : List Instr) : HostInputs :=
  { sourceReadable := true, image := image, preloads := preloads, stream := stream.map .record, streamEnds := true }

/-! ### LDR and STR -/

/-- Scenario A (section 1.5), from reset values: trace, line 0, rc. -/
theorem test_ldr_scenario_A :
    exec (.ldr 0 0x0000) { State.reset with phase := .running } =
      .next { State.reset with
        phase := .running
        lines := State.reset.lines.set 0 { valid := true, dirty := false, tag := 0x000, data := Vector.replicate 8 0 }
        rc := 1
        out := [.trace { op := .ldr, reg := 0, addr := 0, tag := 0, index := 0, offset := 0, hit := false, value := 0 }] } :=
  rfl

/-- A load that evicts a dirty line, as L7: the value loaded, the bytes written back, the line clean. -/
theorem test_ldr_writes_back :
    ∃ t, exec (.ldr 2 0x0042) (warm []) = .next t ∧ t.readReg 2 = 0xA3A2 ∧ memRead t.mem 0 3 = [0x34, 0x12, 0x00]
      ∧ t.line 0 = { valid := true, dirty := false, tag := 0x001, data := #v[0xA0, 0xA1, 0xA2, 0xA3, 0xA4, 0xA5, 0xA6, 0xA7] } :=
  ⟨_, rfl, by decide⟩

/-- S5: the store miss fills with zeros, then writes low byte first. -/
theorem test_str_miss : exec (.str 1 0x0000) (cold []) = .next (warm []) := rfl

/-- S6: write-back to 0000, fill from 0040, then the two bytes written at offset 3; memory at 0040 as before. -/
theorem test_str_miss_on_dirty_line :
    ∃ t, exec (.str 2 0x0043) (warm []) = .next t ∧ memRead t.mem 0 3 = [0x34, 0x12, 0x00]
      ∧ memRead t.mem 0x43 2 = [0xA3, 0xA4] ∧ t.x = (warm []).x
      ∧ t.line 0 = { valid := true, dirty := true, tag := 0x001, data := #v[0xA0, 0xA1, 0xA2, 0x78, 0x56, 0xA5, 0xA6, 0xA7] } :=
  ⟨_, rfl, by decide⟩

/-- The codes of F1 to F7 (section 6), priorities included. -/
theorem test_recordFault :
    recordFault (.ldr 0 0x0007) = some .crossLine ∧ recordFault (.str 1 0xFFFF) = some .crossLine
      ∧ recordFault (.ldr 16 0x0000) = some .invalidRegister ∧ recordFault (.ldr 0 0x10000) = some .invalidAddress
      ∧ recordFault (.str 16 0x0007) = some .invalidRegister ∧ recordFault (.ldr 3 0x10007) = some .invalidAddress
      ∧ recordFault (.str 15 0xFFFE) = none := by decide

/-- The trace line of section 8.1. -/
theorem test_traceText :
    traceText { op := .str, reg := 15, addr := 0xFFFE, tag := 0x3FF, index := 7, offset := 6, hit := true, value := 0xABCD } =
      ['S', 'T', 'R', ' ', 'F', ' ', 'F', 'F', 'F', 'E', ' ', '3', 'F', 'F', ' ', '7', ' ', '6', ' ', 'H', ' ', 'A', 'B', 'C', 'D',
        '\n'] := by decide

/-- Rows of the snapshot text of section 8.3. -/
theorem test_snapshotRows :
    registerRow State.reset.snapshot 3 = "R12=0000 R13=0000 R14=0000 R15=0000\n".toList
      ∧ lineRow (warm []).snapshot 0 = "L0 V=1 D=1 TAG=000 DATA=34 12 00 00 00 00 00 00\n".toList
      ∧ memoryRow (warm []).snapshot 4 = "0040: A0 A1 A2 A3 A4 A5 A6 A7 A8 A9 AA AB AC AD AE AF\n".toList := by decide

/-! ### Witnesses: encoding, text, memory -/

theorem witness_MalformedLinesAreDropped : parseLine ['N', 'O', 'P'] = none ∧ parseLine spacedLine = some (.str 1 0x0010) := by decide

theorem witness_PortWordsFaultOnlyAtOffsetSeven :
    (0x0FFFFF : RequestWord).extractLsb 2 0 = 7 ∧ (0x1FFFFE : RequestWord).extractLsb 2 0 ≠ 7 := by decide

theorem witness_CanonicalMemoriesThatReadAlikeAreEqual :
    Memory.wf [(0x0000, 0x11), (0xFFFF, 0x22)] = true
      ∧ ∀ a : Addr, Memory.read [(0x0000, 0x11), (0xFFFF, 0x22)] a.toNat =
          Memory.read (Memory.write [(0xFFFF, 0x22)] 0x0000 0x11) a.toNat := ⟨by decide, fun _ => rfl⟩

theorem witness_TraceTextDeterminesTheTrace : traceText traceS5 = traceText traceS5 := rfl

/-! ### Witnesses: records that run -/

theorem clean_warm (stream : List Instr) : CleanAgreesWithMemory (warm stream) := by
  have h : ∀ i, ((warm []).line i).valid = true → ((warm []).line i).dirty = true := by decide
  intro i k hv hd
  have e : (warm stream).line i = (warm []).line i := rfl
  rw [e] at hv hd
  rw [h i hv] at hd
  cases hd

/-- A hit at offset 6, the highest legal address, a miss that writes back and one that does not. With the next theorem, also the
hypothesis of TraceReportsTheAccess. -/
theorem witness_LdrResult :
    RunsRecord (.ldr 0 0x0006) (warm []) ∧ RunsRecord (.ldr 15 0xFFFE) (warm []) ∧ RunsRecord (.ldr 2 0x0042) (warm []) := by
  unfold RunsRecord; decide

theorem witness_StrResult :
    RunsRecord (.str 0 0x0006) (warm []) ∧ RunsRecord (.str 15 0xFFFE) (warm []) ∧ RunsRecord (.str 2 0x0043) (warm []) := by
  unfold RunsRecord; decide

theorem witness_RecordFrame :
    WritesBack (addressFields 0x0042) (warm []) ∧ ¬ WritesBack (addressFields 0x0006) (warm [])
      ∧ ¬ WritesBack (addressFields 0xFFFE) (warm []) := by unfold WritesBack; decide

theorem witness_BytesAndWords : (0 : Offset) ≠ 7 ∧ (6 : Offset) ≠ 7 := by decide

/-- A hit and a miss of each operation. -/
theorem witness_DirtyBitAfterAnAccess :
    (∀ i ∈ [Instr.ldr 0 0x0006, .str 0 0x0006], RunsRecord i (warm [])
        ∧ lookup (warm []) (addressFields (BitVec.ofNat 16 i.addr)).index (addressFields (BitVec.ofNat 16 i.addr)).tag = true)
      ∧ ∀ i ∈ [Instr.ldr 15 0xFFFE, .str 15 0x0040], RunsRecord i (warm [])
        ∧ lookup (warm []) (addressFields (BitVec.ofNat 16 i.addr)).index (addressFields (BitVec.ofNat 16 i.addr)).tag = false := by
  unfold RunsRecord; decide

/-- A miss on a valid dirty line, and one on an invalid line. -/
theorem witness_AMissWritesBackTheDirtyLine :
    RunsRecord (.ldr 2 0x0042) (warm []) ∧ lookup (warm []) (addressFields 0x0042).index (addressFields 0x0042).tag = false
      ∧ ((warm []).line (addressFields 0x0042).index).dirty = true
      ∧ RunsRecord (.ldr 15 0xFFFE) (warm []) ∧ lookup (warm []) (addressFields 0xFFFE).index (addressFields 0xFFFE).tag = false
      ∧ ((warm []).line (addressFields 0xFFFE).index).dirty = false := by
  unfold RunsRecord; decide

theorem witness_ViewChangesOnlyWhereAStoreWrites :
    CleanAgreesWithMemory (warm []) ∧ RunsRecord (.str 2 0x0043) (warm []) ∧ RunsRecord (.ldr 2 0x0042) (warm []) :=
  ⟨clean_warm [], witness_StrResult.2.2, witness_LdrResult.2.2⟩

/-- Between the store and the load, line 0 is evicted and written by another block. -/
theorem witness_NoOrderOfRecordsLosesAStore :
    CleanAgreesWithMemory (warm []) ∧ RunsRecord (.str 1 0x0004) (warm [])
      ∧ (∀ i ∈ [Instr.ldr 3 0x0040, .str 2 0x0042, .str 2 0x0006],
          RunsRecord i (warm []) ∧ ¬ StoresTo i 0x0004 ∧ ¬ StoresTo i (0x0004 + 1)) ∧ 15 ≤ 15 := by
  refine ⟨clean_warm [], ?_⟩
  unfold RunsRecord StoresTo
  decide

theorem witness_RunsAreSequentiallyConsistent :
    CleanAgreesWithMemory (cold []) ∧ (cold []).accepting = true
      ∧ (∀ i ∈ [Instr.str 1 0x0000, .ldr 2 0x0040, .ldr 3 0xFFFE], recordFault i = none)
      ∧ Represents (cold []) { x := (cold []).x, mem := imageMem } := by
  have h : ∀ i, ((cold []).line i).valid = false := by decide
  refine ⟨fun i k hv => ?_, by decide, by decide, rfl, fun a => ?_⟩
  · rw [h i] at hv; cases hv
  have e : lookup (cold []) (addressFields a).index (addressFields a).tag = false := by rw [lookup, h, Bool.false_and]
  show (cold []).view a = Memory.read imageMem a.toNat
  rw [State.view, e]
  rfl

theorem witness_FirstAccessToAnInvalidLineMisses :
    RunsRecord (.ldr 0 0xFFFE) (cold []) ∧ ((cold []).line (addressFields 0xFFFE).index).valid = false := by
  unfold RunsRecord; decide

theorem witness_LaterAccessToTheSameBlockHits :
    RunsRecord (.ldr 0 0x0100) (warm []) ∧ RunsRecord (.str 1 0x0106) (warm [])
      ∧ (∀ i ∈ [Instr.ldr 0 0x0108, .str 2 0x0103], RunsRecord i (warm [])
          ∧ ((addressFields (BitVec.ofNat 16 i.addr)).index = (addressFields 0x0100).index →
              (addressFields (BitVec.ofNat 16 i.addr)).tag = (addressFields 0x0100).tag))
      ∧ (addressFields 0x0106).blockBase = (addressFields 0x0100).blockBase := by
  unfold RunsRecord; decide

/-! ### Witnesses: faults, acceptance, stops -/

/-- Each range at its boundary, and the conditions together. -/
theorem witness_FaultEntry :
    (warm []).phase = .running ∧ (warm []).fsm = .idle ∧ (warm []).fault = none
      ∧ ∀ i ∈ [Instr.ldr 16 0x0000, .str 0 0x10000, .ldr 0 0x0007, .str 15 0xFFFF, .str 16 0x10007],
          15 < i.reg ∨ 0xFFFF < i.addr ∨ i.addr % 8 = 7 := by decide

theorem witness_stops :
    step { cold [] with phase := .done } = .fault .noStepInFinalPhase
      ∧ step { cold [] with host := HostInputs.nothing } = .fault .waitingForHost
      ∧ step { cold [.ldr 0 0] with fsm := .check } = .fault .recordNotAccepted := ⟨rfl, rfl, rfl⟩

/-! ### Witnesses: steps -/

/-- The invariant holds in a running state with a dirty line, and its next step is a next state. -/
theorem witness_StepKeepsTheInvariant :
    Inv (warm [.ldr 3 0x0040]) ∧ ∃ t, step (warm [.ldr 3 0x0040]) = .next t := by
  refine ⟨⟨?_, ?_, clean_warm _, rfl, ?_, ?_, ?_⟩, _, rfl⟩
  · show Memory.wf imageMem = true
    decide
  · show ∀ i, ((warm []).line i).dirty = true → ((warm []).line i).valid = true
    decide
  · show Phase.running ≠ .faulted
    decide
  · intro h; cases h
  · show [EventKind.trace] = runEvents false 1
    decide

theorem witness_StepRunsTheDecodedRecord :
    (warm [.ldr 3 0x0040]).phase = .running ∧ (warm [.ldr 3 0x0040]).host.stream = .record (.ldr 3 0x0040) :: []
      ∧ (State.reset.withFetchWord 24 0x110010).phase = .running
      ∧ (State.reset.withFetchWord 24 0x110010).host.stream = .word 0x110010 :: [] := by decide

/-- The phase after a step, where there is a next state; with the theorem after it, also the hypothesis of OutputHistoryOnlyGrows,
ValuesAfterConstruction and VerboseChangesOnlySnapshots that a step answers a next state. -/
def phaseAfter (s : State) : Option Phase :=
  match step s with
  | .next t => some t.phase
  | .fault _ => none
  | .refused _ => none

theorem witness_PhaseTransitions :
    phaseAfter (State.construct false (hostOf .notSelected [] [])) = some .running
      ∧ phaseAfter (State.construct false (hostOf (.readable [overlay 8 0]) [] [])) = some .faulted
      ∧ phaseAfter State.reset = some .aborted ∧ phaseAfter (cold [.ldr 0 0]) = some .running
      ∧ phaseAfter (cold []) = some .done ∧ phaseAfter (cold [.ldr 0 7]) = some .faulted := by decide

/-- A fault record that is set, in a state no run reaches, and one that is not. -/
theorem witness_FaultRecordIsWrittenOnce :
    (∃ s t f, step s = .next t ∧ s.fault = some f ∧ t.fault = some f ∧ t.phase = .faulted)
      ∧ ∃ t f, step (warm [.str 5 0x0017]) = .next t ∧ (warm [.str 5 0x0017]).fault = none ∧ t.fault = some f
          ∧ f = { code := .crossLine, rc := 1, info := .record (.str 5 0x0017) } :=
  ⟨⟨{ cold [.ldr 0 7] with fault := some { code := .invalidAddress, rc := 0, info := .overlayBase 0 } }, _, _, rfl, rfl, rfl, rfl⟩,
    _, _, rfl, rfl, rfl, rfl⟩

theorem witness_RecordCounterCountsExecutedRecords :
    (∃ t, step (warm [.ldr 3 0x0040]) = .next t ∧ t.rc = 2) ∧ (∃ t, step (warm [.ldr 3 0x0047]) = .next t ∧ t.rc = 1)
      ∧ ∃ t, step (warm []) = .next t ∧ t.rc = 1 := ⟨⟨_, rfl, by decide⟩, ⟨_, rfl, by decide⟩, _, rfl, by decide⟩

theorem witness_RegistersChangeOnlyByTheirLdr :
    ∃ t, step (warm [.ldr 3 0x0040]) = .next t ∧ t.readReg 3 ≠ (warm [.ldr 3 0x0040]).readReg 3 := ⟨_, rfl, by decide⟩

theorem witness_MemoryChangesOnlyByWriteBack :
    ∃ t, step (warm [.ldr 3 0x0040]) = .next t ∧ Memory.read t.mem 0 ≠ Memory.read (warm [.ldr 3 0x0040]).mem 0 :=
  ⟨_, rfl, by decide⟩

/-- A dirty bit set, and one cleared. -/
theorem witness_DirtyBitsChangeOnlyByStoreAndFill :
    (∃ t, step (cold [.str 1 0]) = .next t ∧ (t.line 0).dirty ≠ ((cold [.str 1 0]).line 0).dirty)
      ∧ ∃ t, step (warm [.ldr 3 0x0040]) = .next t ∧ (t.line 0).dirty ≠ ((warm [.ldr 3 0x0040]).line 0).dirty :=
  ⟨⟨_, rfl, by decide⟩, _, rfl, by decide⟩

/-- A valid bit set, and the tag of a valid line replaced. -/
theorem witness_ValidIsNeverClearedAndTagsChangeOnlyByFill :
    (∃ t, step (cold [.str 1 0]) = .next t ∧ (t.line 0).valid ≠ ((cold [.str 1 0]).line 0).valid)
      ∧ ∃ t, step (warm [.ldr 3 0x0040]) = .next t ∧ ((warm [.ldr 3 0x0040]).line 0).valid = true
          ∧ (t.line 0).tag ≠ ((warm [.ldr 3 0x0040]).line 0).tag := ⟨⟨_, rfl, by decide⟩, _, rfl, by decide⟩

theorem witness_MemoryIsStaleOnlyUnderADirtyLine :
    CleanAgreesWithMemory (warm []) ∧ (warm []).view 0 ≠ Memory.read (warm []).mem 0 := ⟨clean_warm [], by decide⟩

/-! ### Witnesses: launch and end -/

/-- A host with overlapping legal overlays, one at the highest base, and two preloads of one register. -/
def legalHost : HostInputs :=
  hostOf (.readable [overlay 0 0x11, overlay 0 0x22, overlay 0xFFF0 1]) [⟨1, 0x1234⟩, ⟨1, 0x5678⟩] []

theorem witness_LaunchStartsTheRun :
    legalHost.sourceReadable = true ∧ ∀ o ∈ imageOverlays legalHost.image, LegalBase o := by
  unfold LegalBase; decide

/-- The host of I5. -/
def misalignedHost : HostInputs := hostOf (.readable [overlay 0 1, overlay 8 2]) [] []

/-- I5, the base of I6, and a base above the address space. -/
theorem witness_MisalignedImageIsALaunchFault :
    misalignedHost.sourceReadable = true ∧ imageOverlays misalignedHost.image = [overlay 0 1] ++ overlay 8 2 :: []
      ∧ (∀ p ∈ [overlay 0 1], LegalBase p) ∧ ¬ LegalBase (overlay 8 2) ∧ ¬ LegalBase (overlay 0xFFF5 1)
      ∧ ¬ LegalBase (overlay 0x10000 1) := by
  unfold LegalBase; decide

theorem witness_MissingSourceAbortsTheRun : HostInputs.nothing.sourceReadable = false := rfl

theorem witness_EndOfStreamEndsTheRun :
    (cold []).phase = .running ∧ (cold []).host.stream = [] ∧ (cold []).host.streamEnds = true := by decide

/-- Scenario A, VERBOSE off and on: launch, one record, end. -/
theorem witness_RunsThatEndWellEmitTheirSnapshots :
    (∃ t, core.run 3 (State.construct false (hostOf .notSelected [] [.ldr 0 0])) = .next t ∧ EndedWell t)
      ∧ ∃ t, core.run 3 (State.construct true (hostOf .notSelected [] [.ldr 0 0])) = .next t ∧ EndedWell t :=
  ⟨⟨_, rfl, rfl⟩, _, rfl, rfl⟩

theorem witness_EveryRunEnds : (warm [.ldr 3 0x0040]).fsm = .idle ∧ (warm [.ldr 3 0x0040]).host.streamEnds = true := by decide

/-! ### Witnesses: the controller, and what cannot be observed -/

/-- A fault, a hit, a miss without a write-back and one with it. -/
theorem witness_ControllerTicksGiveTheStep :
    (warm []).accepting = true ∧ transitionCount (.ldr 0 0x0007) (warm []) = 2 ∧ transitionCount (.ldr 0 0x0006) (warm []) = 5
      ∧ transitionCount (.str 0 0x0008) (warm []) = 6 ∧ transitionCount (.str 0 0x0040) (warm []) = 7 := by decide

theorem witness_VerboseChangesOnlySnapshots :
    SameButSnapshots (warm [.ldr 3 0x0040]) { warm [.ldr 3 0x0040] with verbose := true } := by
  unfold SameButSnapshots; exact ⟨rfl, rfl, rfl, rfl, rfl, rfl, rfl, rfl, rfl⟩

/-- Line 3, invalid, with the hidden tag of an access to come, and dirty. -/
theorem witness_FieldsOfInvalidLinesAffectNothing :
    SameButInvalidLines (cold [.ldr 0 0x0058])
      { cold [.ldr 0 0x0058] with
        lines := (cold []).lines.set 3 { valid := false, dirty := true, tag := 0x001, data := Vector.replicate 8 0xFF } } := by
  refine ⟨rfl, rfl, ?_, rfl, rfl, rfl, rfl, rfl, rfl, rfl⟩
  unfold SameLine
  decide

end Sys2Proof.Tests
end

section
/-! PROOFS. The obligations of 00_scope.md: the bytes of a value (R14), and that VERBOSE changes only when snapshots are emitted (R6). -/

namespace Sys2Proof.Machine

/-! ### The bytes of a value (R14) -/

theorem lowByte_eq_extractLsb (v : Word) : lowByte v = v.extractLsb 7 0 := by
  ext k hk
  simp [lowByte]

theorem highByte_eq_extractLsb (v : Word) : highByte v = v.extractLsb 15 8 := by
  ext k hk
  simp [highByte]

/-- The two bytes of a pair lie at different offsets, so neither write of a store hides the other;
that holds at offset 7 too, where `off + 1` wraps and no access comes (entry 11). -/
theorem loadPair_storePair (d : Block) (off : Offset) (v : Word) : loadPair (storePair d off v) off = v := by
  have hlow : blockByte (storePair d off v) off = lowByte v := by simp [blockByte_storePair]
  have hhigh : blockByte (storePair d off v) (off + 1) = highByte v := by simp [blockByte_storePair]
  rw [loadPair, hlow, hhigh, combineBytes_low_high]

/-- Settles O17: `storePair` puts the low and the high byte where `loadPair` takes them from. -/
theorem bytesAndWords : Obligations.BytesAndWords := by
  unfold Obligations.BytesAndWords
  exact ⟨fun v => ⟨lowByte_eq_extractLsb v, highByte_eq_extractLsb v⟩, fun _ _ => rfl,
    fun d off v _ => loadPair_storePair d off v⟩

/-! ### A history without its snapshots -/

@[simp] theorem withoutSnapshots_append (l m : List Event) :
    withoutSnapshots (l ++ m) = withoutSnapshots l ++ withoutSnapshots m := by
  simp [withoutSnapshots]

/-- What VERBOSE adds to the history (44_trace_snapshot.md R225) is gone without the snapshots. -/
@[simp] theorem withoutSnapshots_verbose (v : Bool) (q : Snapshot) :
    withoutSnapshots (if v then [.snapshot q] else []) = [] := by
  cases v <;> rfl

@[simp] theorem withoutSnapshots_cons_trace (e : Trace) (l : List Event) :
    withoutSnapshots (.trace e :: l) = .trace e :: withoutSnapshots l := rfl

section
variable {s t : State}

/-! ### What a step reads is equal in two states that differ only in VERBOSE and in snapshots -/

theorem SameButSnapshots.line_eq (h : SameButSnapshots s t) (i : Index) : s.line i = t.line i := by
  obtain ⟨-, -, hl, -⟩ := h
  exact State.line_eq_of_lines hl i

theorem SameButSnapshots.mem_eq (h : SameButSnapshots s t) : s.mem = t.mem := by
  obtain ⟨-, hm, -⟩ := h
  exact hm

theorem SameButSnapshots.readReg_eq (h : SameButSnapshots s t) (r : RegIndex) : s.readReg r = t.readReg r := by
  obtain ⟨hx, -⟩ := h
  simp [State.readReg, hx]

theorem SameButSnapshots.host_eq (h : SameButSnapshots s t) : s.host = t.host := by
  obtain ⟨-, -, -, -, -, -, -, hh, -⟩ := h
  exact hh

theorem SameButSnapshots.phase_eq (h : SameButSnapshots s t) : s.phase = t.phase := by
  obtain ⟨-, -, -, -, hp, -⟩ := h
  exact hp

theorem SameButSnapshots.accepting_eq (h : SameButSnapshots s t) : s.accepting = t.accepting := by
  obtain ⟨-, -, -, -, hp, -, hc, -⟩ := h
  simp [State.accepting, hp, hc]

/-! ### Every operation of a step keeps `SameButSnapshots` -/

theorem needsWriteBack_congr {i : Index} (h : s.line i = t.line i) : needsWriteBack s i = needsWriteBack t i := by
  simp [needsWriteBack, h]

theorem sameButSnapshots_withStream (h : SameButSnapshots s t) (rest : List Request) :
    SameButSnapshots (s.withStream rest) (t.withStream rest) := by
  obtain ⟨hx, hm, hl, hr, hp, hf, hc, hh, ho⟩ := h
  exact ⟨hx, hm, hl, hr, hp, hf, hc, by simp [hh], ho⟩

/-- Fault entry records the rc and the fault record of the state, which are equal. -/
theorem sameButSnapshots_raise (h : SameButSnapshots s t) (code : FaultCode) (info : FaultInfo) :
    SameButSnapshots (s.raise code info) (t.raise code info) := by
  obtain ⟨hx, hm, hl, hr, hp, hf, hc, hh, ho⟩ := h
  exact ⟨hx, hm, hl, hr, rfl, by simp [hf, hr], rfl, hh, by simp [hf, hr, ho]⟩

/-- The final snapshot is emitted whatever VERBOSE is (43_arbiter.md R198). -/
theorem sameButSnapshots_endOfStream (h : SameButSnapshots s t) : SameButSnapshots (endOfStream s) (endOfStream t) := by
  obtain ⟨hx, hm, hl, hr, hp, hf, hc, hh, ho⟩ := h
  have hq : s.snapshot = t.snapshot := State.snapshot_congr hx hl hm
  exact ⟨hx, hm, hl, hr, rfl, hf, hc, hh, by simp [ho, hq]⟩

theorem sameButSnapshots_startRun (h : SameButSnapshots s t) : SameButSnapshots (startRun s) (startRun t) := by
  obtain ⟨hx, hm, hl, hr, hp, hf, hc, hh, ho⟩ := h
  have hpre : (startRun s).x = (startRun t).x := by
    rw [startRun_x, startRun_x, hh, applyPreloads_x_congr _ hx]
  exact ⟨hpre, by simp [hm, hh], by simp [hl], by simp [hr], by simp, by simp [hf], by simp [hc], by simp [hh],
    by simp [startRun_out, ho]⟩

theorem sameButSnapshots_launch (h : SameButSnapshots s t) : SameButSnapshots (launch s) (launch t) := by
  have hh := h.host_eq
  obtain ⟨hr, hs⟩ | ⟨base, hr, hb, hs⟩ | ⟨hr, hn, hs⟩ := launch_cases s
  · have ht : launch t = { t with phase := .aborted } := by simp [launch, ← hh, hr]
    rw [hs, ht]
    obtain ⟨hx, hm, hl, hc, -, hf, hfsm, -, ho⟩ := h
    exact ⟨hx, hm, hl, hc, rfl, hf, hfsm, hh, ho⟩
  · have ht : launch t = t.raise .imageMisaligned (.overlayBase base) := by simp [launch, ← hh, hr, hb]
    rw [hs, ht]
    exact sameButSnapshots_raise h _ _
  · have ht : launch t = startRun t := by simp [launch, ← hh, hr, hn]
    rw [hs, ht]
    exact sameButSnapshots_startRun h

theorem sameButSnapshots_writeBack (h : SameButSnapshots s t) (i : Index) :
    SameButSnapshots (writeBack s i) (writeBack t i) := by
  obtain ⟨hx, hm, hl, hr, hp, hf, hc, hh, ho⟩ := h
  exact ⟨hx, by simp [hm, State.line_eq_of_lines hl], hl, hr, hp, hf, hc, hh, ho⟩

theorem sameButSnapshots_setLine (h : SameButSnapshots s t) (i : Index) (l : Line) :
    SameButSnapshots (s.setLine i l) (t.setLine i l) := by
  obtain ⟨hx, hm, hl, hr, hp, hf, hc, hh, ho⟩ := h
  exact ⟨hx, hm, by simp [hl], hr, hp, hf, hc, hh, ho⟩

theorem sameButSnapshots_writeReg (h : SameButSnapshots s t) (r : RegIndex) (v : Word) :
    SameButSnapshots (s.writeReg r v) (t.writeReg r v) := by
  obtain ⟨hx, hm, hl, hr, hp, hf, hc, hh, ho⟩ := h
  exact ⟨by simp [hx], hm, hl, hr, hp, hf, hc, hh, ho⟩

theorem sameButSnapshots_fillLine (h : SameButSnapshots s t) (i : Index) (g : Tag) (base : Addr) :
    SameButSnapshots (fillLine s i g base) (fillLine t i g base) := by
  rw [fillLine, fillLine, h.mem_eq]
  exact sameButSnapshots_setLine h i _

/-- The eviction and the fill read lines and memory only. -/
theorem sameButSnapshots_missLine (h : SameButSnapshots s t) (i : Index) (g : Tag) (base : Addr) :
    SameButSnapshots (missLine s i g base) (missLine t i g base) := by
  rw [missLine, missLine, needsWriteBack_congr (h.line_eq i)]
  refine sameButSnapshots_fillLine ?_ i g base
  split
  · exact sameButSnapshots_writeBack h i
  · exact h

theorem sameButSnapshots_makeResident (h : SameButSnapshots s t) (f : AddressFields) :
    SameButSnapshots (makeResident s f) (makeResident t f) := by
  rw [makeResident, makeResident, lookup_congr (h.line_eq f.index)]
  split
  · exact h
  · exact sameButSnapshots_missLine h _ _ _

/-- The access moves the same value and leaves the states related. -/
theorem sameButSnapshots_accessLine (h : SameButSnapshots s t) (i : Instr) (f : AddressFields) :
    SameButSnapshots (accessLine i f s).1 (accessLine i f t).1 ∧ (accessLine i f s).2 = (accessLine i f t).2 := by
  cases i with
  | ldr r a =>
    simp only [accessLine, h.line_eq]
    exact ⟨sameButSnapshots_writeReg h _ _, trivial⟩
  | str r a =>
    simp only [accessLine, storeToLine, h.line_eq, h.readReg_eq]
    exact ⟨sameButSnapshots_setLine h _ _, trivial⟩

/-- The one place of a record's execution that reads VERBOSE. -/
theorem sameButSnapshots_respond (h : SameButSnapshots s t) (e : Trace) :
    SameButSnapshots (respond s e) (respond t e) := by
  obtain ⟨hx, hm, hl, hr, hp, hf, hc, hh, ho⟩ := h
  exact ⟨by simp [hx], by simp [hm], by simp [hl], by simp [hr], by simp [hp], by simp [hf], by simp [hc], by simp [hh],
    by simp [respond_out, ho]⟩

theorem sameButSnapshots_executed (h : SameButSnapshots s t) (i : Instr) :
    SameButSnapshots (executed i s) (executed i t) := by
  have hhit : recordHit i s = recordHit i t := lookup_congr (h.line_eq _) _
  obtain ⟨hstate, hvalue⟩ :=
    sameButSnapshots_accessLine (sameButSnapshots_makeResident h (Instr.fields i)) i (Instr.fields i)
  simp only [executed, hhit, hvalue]
  exact sameButSnapshots_respond hstate _

theorem sameOutcome_exec (h : SameButSnapshots s t) (i : Instr) :
    SameOutcome SameButSnapshots (exec i s) (exec i t) := by
  rw [exec_eq, exec_eq, h.accepting_eq]
  cases t.accepting with
  | false => exact rfl
  | true =>
    cases recordFault i with
    | some code => exact sameButSnapshots_raise h code _
    | none => exact sameButSnapshots_executed h i

theorem sameOutcome_step (h : SameButSnapshots s t) : SameOutcome SameButSnapshots (step s) (step t) := by
  unfold step
  rw [h.phase_eq, h.host_eq]
  cases t.phase with
  | launch => exact sameButSnapshots_launch h
  | running =>
    cases t.host.stream with
    | cons req rest => exact sameOutcome_exec (sameButSnapshots_withStream h rest) _
    | nil =>
      cases t.host.streamEnds with
      | true => exact sameButSnapshots_endOfStream h
      | false => exact rfl
  | done | faulted | aborted => exact rfl

end

/-! ### VERBOSE is constant -/

theorem launch_verbose (s : State) : (launch s).verbose = s.verbose := by
  obtain ⟨-, hs⟩ | ⟨base, -, -, hs⟩ | ⟨-, -, hs⟩ := launch_cases s <;> simp [hs]

theorem exec_verbose {i : Instr} {s t : State} (h : exec i s = .next t) : t.verbose = s.verbose := by
  obtain ⟨-, ⟨code, -, rfl⟩ | ⟨-, rfl⟩⟩ := exec_cases h
  · exact State.raise_verbose ..
  · exact executed_verbose ..

theorem step_verbose {s t : State} (h : step s = .next t) : t.verbose = s.verbose := by
  obtain ⟨-, rfl⟩ | ⟨req, rest, -, -, he⟩ | ⟨-, -, -, rfl⟩ := step_cases h
  · exact launch_verbose s
  · exact (exec_verbose he).trans (State.withStream_verbose ..)
  · exact endOfStream_verbose s

/-- Settles O49: each operation of a step keeps `SameButSnapshots`, and none writes VERBOSE. -/
theorem verboseChangesOnlySnapshots : Obligations.VerboseChangesOnlySnapshots := by
  unfold Obligations.VerboseChangesOnlySnapshots
  exact ⟨fun _ _ => sameOutcome_step, fun _ _ => step_verbose⟩

end Sys2Proof.Machine
end

section
/-! PROOFS. The obligations of 10_state.md: the phases (R31), the output history (R36) and the record counter (R30). -/

namespace Sys2Proof.Machine

/-! ### The four outcomes of a step -/

/-- Everything a step can do, a presented record told apart by whether it meets a fault condition. -/
theorem step_outcomes {s t : State} (h : step s = .next t) :
    (s.phase = .launch ∧ t = launch s) ∨
    (∃ req rest code, s.phase = .running ∧ s.host.stream = req :: rest ∧ recordFault (fetchRecord req) = some code
      ∧ t = (s.withStream rest).raise code (.record (fetchRecord req))) ∨
    (∃ req rest, s.phase = .running ∧ s.host.stream = req :: rest ∧ recordFault (fetchRecord req) = none
      ∧ t = executed (fetchRecord req) (s.withStream rest)) ∨
    (s.phase = .running ∧ s.host.stream = [] ∧ s.host.streamEnds = true ∧ t = endOfStream s) := by
  obtain hl | ⟨req, rest, hp, hs, he⟩ | hend := step_cases h
  · exact .inl hl
  · obtain ⟨-, ⟨code, hf, ht⟩ | ⟨hf, ht⟩⟩ := exec_cases he
    · exact .inr (.inl ⟨req, rest, code, hp, hs, hf, ht⟩)
    · exact .inr (.inr (.inl ⟨req, rest, hp, hs, hf, ht⟩))
  · exact .inr (.inr (.inr hend))

/-! ### The phases (R31) -/

/-- The check of an image refuses only an illegal base (20_memory.md R63). -/
theorem exists_illegal_of_firstMisaligned {os : List Overlay} {base : Nat} (h : firstMisaligned os = some base) :
    ∃ o ∈ os, ¬ LegalBase o := by
  have hne : firstMisaligned os ≠ none := by simp [h]
  simpa [firstMisaligned_eq_none] using hne

/-- The phase after the launch, with its cause. -/
theorem launch_phase (s : State) :
    (s.host.sourceReadable = false ∧ (launch s).phase = .aborted)
      ∨ (s.host.sourceReadable = true ∧ (∃ o ∈ imageOverlays s.host.image, ¬ LegalBase o) ∧ (launch s).phase = .faulted)
      ∨ (s.host.sourceReadable = true ∧ (∀ o ∈ imageOverlays s.host.image, LegalBase o) ∧ (launch s).phase = .running) := by
  obtain ⟨hr, hs⟩ | ⟨base, hr, hb, hs⟩ | ⟨hr, hn, hs⟩ := launch_cases s
  · exact .inl ⟨hr, by simp [hs]⟩
  · exact .inr (.inl ⟨hr, exists_illegal_of_firstMisaligned hb, by simp [hs]⟩)
  · exact .inr (.inr ⟨hr, firstMisaligned_eq_none.1 hn, by simp [hs]⟩)

/-- Settles O33: a step leaves Launch by the launch, and Running by a record or by the end of the stream. -/
theorem phaseTransitions : Obligations.PhaseTransitions := by
  unfold Obligations.PhaseTransitions
  refine ⟨rfl, fun s t h => ?_⟩
  obtain ⟨hp, rfl⟩ | ⟨req, rest, code, hp, hs, hf, rfl⟩ | ⟨req, rest, hp, hs, hf, rfl⟩ | ⟨hp, hs, he, rfl⟩ :=
    step_outcomes h
  · exact .inl ⟨hp, launch_phase s⟩
  · exact .inr ⟨hp, .inr (.inl ⟨req, rest, hs, by simp [hf], State.raise_phase ..⟩)⟩
  · exact .inr ⟨hp, .inr (.inr ⟨req, rest, hs, hf, by simp [hp]⟩)⟩
  · exact .inr ⟨hp, .inl ⟨hs, he, endOfStream_phase s⟩⟩

/-! ### The output history (R36) -/

theorem launch_appends_events (s : State) : ∃ events, (launch s).out = s.out ++ events := by
  obtain ⟨-, hs⟩ | ⟨base, -, -, hs⟩ | ⟨-, -, hs⟩ := launch_cases s
  · exact ⟨[], by simp [hs]⟩
  · rw [hs]
    exact ⟨_, State.raise_out ..⟩
  · rw [hs]
    exact ⟨_, startRun_out s⟩

theorem step_appends_events {s t : State} (h : step s = .next t) : ∃ events, t.out = s.out ++ events := by
  obtain ⟨-, rfl⟩ | ⟨req, rest, code, -, -, -, rfl⟩ | ⟨req, rest, -, -, -, rfl⟩ | ⟨-, -, -, rfl⟩ := step_outcomes h
  · exact launch_appends_events s
  · exact ⟨_, State.raise_out ..⟩
  · exact ⟨_, executed_out ..⟩
  · exact ⟨_, (endOfStream_out s).trans (List.append_assoc ..)⟩

/-- Settles O35: in each of its four outcomes a step puts its events after the old history. -/
theorem outputHistoryOnlyGrows : Obligations.OutputHistoryOnlyGrows := by
  unfold Obligations.OutputHistoryOnlyGrows
  exact ⟨rfl, fun _ _ => step_appends_events⟩

/-! ### The stream of a text without its malformed lines (30_encoding.md R83) -/

theorem textStream_append (l m : List (List Char)) : textStream (l ++ m) = textStream l ++ textStream m := by
  simp [textStream, parseLines]

theorem textStream_cons_malformed {line : List Char} (h : parseLine line = none) (after : List (List Char)) :
    textStream (line :: after) = textStream after := by
  simp [textStream, parseLines, h]

/-! ### The record counter (R30) -/

/-- The next step executes a record: one is presented in phase Running, and it meets no fault condition. -/
def ExecutesRecord (s : State) : Prop :=
  ∃ req rest, s.phase = .running ∧ s.host.stream = req :: rest ∧ recordFault (fetchRecord req) = none

/-- The record presented is the first of the stream. -/
theorem executesRecord_iff {s : State} {req : Request} {rest : List Request} (hp : s.phase = .running)
    (hs : s.host.stream = req :: rest) : ExecutesRecord s ↔ recordFault (fetchRecord req) = none := by
  simp [ExecutesRecord, hp, hs]

theorem not_executesRecord_of_launch {s : State} (hp : s.phase = .launch) : ¬ ExecutesRecord s := by
  simp [ExecutesRecord, hp]

theorem not_executesRecord_of_nil {s : State} (hs : s.host.stream = []) : ¬ ExecutesRecord s := by
  simp [ExecutesRecord, hs]

theorem launch_rc (s : State) : (launch s).rc = s.rc := by
  obtain ⟨-, hs⟩ | ⟨base, -, -, hs⟩ | ⟨-, -, hs⟩ := launch_cases s <;> simp [hs]

/-- The record counter after a step, by whether the step executes a record. -/
theorem step_rc {s t : State} (h : step s = .next t) :
    (ExecutesRecord s ∧ t.rc = s.rc + 1) ∨ (¬ ExecutesRecord s ∧ t.rc = s.rc) := by
  obtain ⟨hp, rfl⟩ | ⟨req, rest, code, hp, hs, hf, rfl⟩ | ⟨req, rest, hp, hs, hf, rfl⟩ | ⟨-, hs, -, rfl⟩ :=
    step_outcomes h
  · exact .inr ⟨not_executesRecord_of_launch hp, launch_rc s⟩
  · exact .inr ⟨by simp [executesRecord_iff hp hs, hf], by simp⟩
  · exact .inl ⟨(executesRecord_iff hp hs).2 hf, by simp⟩
  · exact .inr ⟨not_executesRecord_of_nil hs, endOfStream_rc s⟩

/-- Settles O36: of the outcomes of a step only the executed record advances rc, and the stream holds no malformed line. -/
theorem recordCounterCountsExecutedRecords : Obligations.RecordCounterCountsExecutedRecords := by
  unfold Obligations.RecordCounterCountsExecutedRecords
  refine ⟨rfl, fun before after line h => ?_, fun s t h => step_rc h⟩
  rw [textStream_append, textStream_append, textStream_cons_malformed h]

end Sys2Proof.Machine
end

section
/-! PROOFS. The obligation of 20_memory.md: fault entry (R57, 60_exceptions.md R247). -/

namespace Sys2Proof.Machine

/-! ### The fault conditions of a record, on its own numbers (60_exceptions.md R246) -/

/-- Reducing an address to 16 bits keeps its offset, so the test agrees with the number even out of range. -/
theorem offset_addrOperand_eq_seven (a : Nat) : (addressFields (addrOperand a)).offset = 7 ↔ a % 8 = 7 := by
  have hoff : (addressFields (addrOperand a)).offset.toNat = a % 8 := by
    rw [addressFields_offset_toNat, addrOperand, BitVec.toNat_ofNat]
    omega
  rw [← BitVec.toNat_inj, hoff]
  rfl

/-- A record that meets a fault condition has a first one; it is CrossLine where both range checks pass. -/
theorem recordFault_eq_some {i : Instr} (h : 15 < i.reg ∨ 0xFFFF < i.addr ∨ i.addr % 8 = 7) :
    recordFault i =
      some (if 15 < i.reg then .invalidRegister else if 0xFFFF < i.addr then .invalidAddress else .crossLine) := by
  simp only [recordFault, offset_addrOperand_eq_seven]
  by_cases hr : 15 < i.reg
  · simp only [hr, if_true]
  · by_cases ha : 0xFFFF < i.addr
    · simp only [hr, ha, if_true, if_false]
    · have hc : i.addr % 8 = 7 := (h.resolve_left hr).resolve_left ha
      simp only [hr, ha, hc, if_true, if_false]

/-! ### Fault entry and what follows it -/

/-- With no fault recorded before, fault entry records and emits the new one (60_exceptions.md R247). -/
theorem State.raise_of_fault_none {s : State} (h : s.fault = none) (code : FaultCode) (info : FaultInfo) :
    s.raise code info =
      { s with fault := some { code := code, rc := s.rc, info := info }
               out := s.out ++ [.fault { code := code, rc := s.rc, info := info }]
               phase := .faulted, fsm := .idle } := by
  simp only [State.raise, h, Option.getD_none]

/-- Phase Faulted has no outgoing transition (10_state.md R31). -/
theorem step_of_faulted {s : State} (h : s.phase = .faulted) : step s = .fault .noStepInFinalPhase := by
  simp only [step, h]

theorem not_endedWell_of_faulted {s : State} (h : s.phase = .faulted) : ¬ EndedWell s := by
  simp [EndedWell, h]

/-- Settles O28: the accepted record raises its first fault condition, and fault entry leaves the block in phase Faulted. -/
theorem faultEntry : Obligations.FaultEntry := by
  unfold Obligations.FaultEntry
  intro i s hphase hfsm hnone hcond
  have hexec := exec_of_fault ((accepting_iff s).2 ⟨hphase, hfsm⟩) (recordFault_eq_some hcond)
  exact ⟨_, _, hexec, rfl, State.raise_of_fault_none hnone .., step_of_faulted (State.raise_phase ..),
    not_endedWell_of_faulted (State.raise_phase ..)⟩

end Sys2Proof.Machine
end

section
/-! PROOFS. Two obligations of 30_encoding.md: the layout of the request word and the opcode map (R85, R87), and malformed lines (R83). -/

namespace Sys2Proof.Machine

/-! ### The fields of a decoded record -/

@[simp] theorem ofParts_op (op : Op) (r a : Nat) : (Instr.ofParts op r a).op = op := by cases op <;> rfl

@[simp] theorem ofParts_reg (op : Op) (r a : Nat) : (Instr.ofParts op r a).reg = r := by cases op <;> rfl

@[simp] theorem ofParts_addr (op : Op) (r a : Nat) : (Instr.ofParts op r a).addr = a := by cases op <;> rfl

@[simp] theorem decode_op (w : RequestWord) : (decode w).op = wordOp w := ofParts_op ..

@[simp] theorem decode_reg (w : RequestWord) : (decode w).reg = (wordReg w).toNat := ofParts_reg ..

@[simp] theorem decode_addr (w : RequestWord) : (decode w).addr = (wordAddr w).toNat := ofParts_addr ..

/-! ### The fields of a request word, read (R85) and masked (R87) -/

theorem wordReg_eq_extractLsb (w : RequestWord) : wordReg w = w.extractLsb 19 16 := by
  ext k hk
  simp [wordReg]

theorem wordAddr_eq_extractLsb (w : RequestWord) : wordAddr w = w.extractLsb 15 0 := by
  ext k hk
  simp [wordAddr]

/-- The opcode map's mask keeps bit 20 and nothing else. -/
theorem and_opMask (w : RequestWord) : w &&& opMask = if w.getLsbD 20 then opMask else 0#21 := by
  have hmask : opMask = BitVec.twoPow 21 20 := rfl
  rw [hmask, BitVec.and_twoPow]

theorem wordOp_eq_ite_bit (w : RequestWord) : wordOp w = if w.getLsbD 20 then .str else .ldr := by
  rw [wordOp, and_opMask]
  cases w.getLsbD 20 <;> rfl

/-- An operation is decoded exactly from the words of its row of the opcode map: the two rows share no word and miss none. -/
theorem wordOp_eq_iff (w : RequestWord) (op : Op) : wordOp w = op ↔ w &&& opMask = opMatch op := by
  rw [wordOp_eq_ite_bit, and_opMask]
  cases w.getLsbD 20 <;> cases op <;> decide

/-! ### The fields of a request word, written (R85) -/

/-- The operation as the one-bit field of a request word. -/
def opBit : Op → Nat
  | .ldr => 0
  | .str => 1

theorem opMatch_toNat (op : Op) : (opMatch op).toNat = opBit op <<< 20 := by cases op <;> rfl

/-- A register index in range loses no bit in its field. -/
theorem regField_toNat {r : Nat} (h : r < Config.numRegs) : ((BitVec.ofNat 4 r).setWidth 21 <<< 16).toNat = r <<< 16 := by
  simp only [Config.numRegs] at h
  simp only [BitVec.toNat_shiftLeft, BitVec.toNat_setWidth, BitVec.toNat_ofNat, Nat.shiftLeft_eq]
  omega

/-- An address in range loses no bit in its field. -/
theorem addrField_toNat {a : Nat} (h : a < Config.memBytes) : ((BitVec.ofNat 16 a).setWidth 21).toNat = a := by
  simp only [Config.memBytes] at h
  simp only [BitVec.toNat_setWidth, BitVec.toNat_ofNat]
  omega

theorem encode_toNat {i : Instr} (h : WellFormed i) :
    (encode i).toNat = opBit i.op <<< 20 ||| i.reg <<< 16 ||| i.addr := by
  obtain ⟨hreg, haddr⟩ := h
  rw [encode, BitVec.toNat_or, BitVec.toNat_or, opMatch_toNat, regField_toNat hreg, addrField_toNat haddr]

/-- Settles O3: the fields of the word written and the word read, with bit 20 alone choosing the operation. -/
theorem requestWordLayout : Obligations.RequestWordLayout := by
  unfold Obligations.RequestWordLayout
  refine ⟨fun i hi => encode_toNat hi, fun w => ?_⟩
  rw [decode_op, decode_reg, decode_addr, ← wordReg_eq_extractLsb, ← wordAddr_eq_extractLsb]
  exact ⟨wordOp_eq_iff w .ldr, wordOp_eq_iff w .str, wordOp_eq_ite_bit w, rfl, rfl⟩

/-! ### The stream of a text (R83) -/

theorem textStream_cons_record {line : List Char} {i : Instr} (h : parseLine line = some i) (after : List (List Char)) :
    textStream (line :: after) = .record i :: textStream after := by
  simp [textStream, parseLines, h]

/-- Settles O8: the stream of a text is put together from its lines, and a malformed line adds nothing. -/
theorem malformedLinesAreDropped : Obligations.MalformedLinesAreDropped := by
  unfold Obligations.MalformedLinesAreDropped
  refine ⟨fun before after line h => ?_, fun before after line i h => ?_⟩
  · rw [textStream_append, textStream_append, textStream_cons_malformed h]
  · rw [textStream_append, textStream_cons_record h]

end Sys2Proof.Machine
end

section
/-! PROOFS. The obligations of 40_address_decoder.md: an address is put together from its fields (R103, R104), and addresses and
(tag, index, offset) triples correspond one to one (R105). -/

namespace Sys2Proof.Machine

/-! ### The fields of the address of a triple -/

/-- A line base has bits 2:0 clear, so that the offset is put in without a carry. -/
theorem addressOf_toNat (t : Tag) (i : Index) (off : Offset) :
    (addressOf t i off).toNat = (lineBase t i).toNat + off.toNat := by
  have hbase : (lineBase t i).toNat = 2 ^ 3 * (t.toNat * 8 + i.toNat) := by rw [lineBase_toNat]; omega
  rw [addressOf, BitVec.toNat_or, BitVec.toNat_setWidth_of_le (by decide), hbase,
    Nat.two_pow_add_eq_or_of_lt off.isLt]

theorem addressFields_addressOf_offset (t : Tag) (i : Index) (off : Offset) :
    (addressFields (addressOf t i off)).offset = off := by
  apply BitVec.eq_of_toNat_eq
  rw [addressFields_offset_toNat, addressOf_toNat, lineBase_toNat]; omega

theorem addressFields_addressOf_index (t : Tag) (i : Index) (off : Offset) :
    (addressFields (addressOf t i off)).index = i := by
  apply BitVec.eq_of_toNat_eq
  rw [addressFields_index_toNat, addressOf_toNat, lineBase_toNat]; omega

theorem addressFields_addressOf_tag (t : Tag) (i : Index) (off : Offset) :
    (addressFields (addressOf t i off)).tag = t := by
  apply BitVec.eq_of_toNat_eq
  rw [addressFields_tag_toNat, addressOf_toNat, lineBase_toNat]; omega

/-- The line base of the fields of an address is its block base (40_address_decoder.md R103, R106). -/
theorem lineBase_addressFields (a : Addr) :
    lineBase (addressFields a).tag (addressFields a).index = (addressFields a).blockBase :=
  BitVec.eq_of_toNat_eq (blockBase_eq_lineBase_toNat a).symm

/-- Decomposing the address of a triple gives the triple back. -/
theorem addressFields_addressOf (t : Tag) (i : Index) (off : Offset) :
    addressFields (addressOf t i off) = { offset := off, index := i, tag := t, blockBase := lineBase t i } := by
  have hbase := lineBase_addressFields (addressOf t i off)
  rw [addressFields_addressOf_tag, addressFields_addressOf_index] at hbase
  rw [AddressFields.mk.injEq]
  exact ⟨addressFields_addressOf_offset t i off, addressFields_addressOf_index t i off,
    addressFields_addressOf_tag t i off, hbase.symm⟩

/-! ### The address of the fields of an address -/

theorem blockBase_toNat_add_offset_toNat (a : Addr) :
    (addressFields a).blockBase.toNat + (addressFields a).offset.toNat = a.toNat := by
  rw [blockBase_eq_lineBase_toNat, ← toNat_eq_lineBase_add_offset]

/-- The address of the fields of an address is the address. -/
theorem addressOf_addressFields (a : Addr) :
    addressOf (addressFields a).tag (addressFields a).index (addressFields a).offset = a := by
  apply BitVec.eq_of_toNat_eq
  rw [addressOf_toNat, ← toNat_eq_lineBase_add_offset]

theorem blockBase_low_bits (a : Addr) : (addressFields a).blockBase.extractLsb 2 0 = 0 := by
  apply BitVec.eq_of_toNat_eq
  rw [BitVec.extractLsb_toNat, addressFields_blockBase_toNat, Nat.shiftRight_zero]
  exact Nat.mul_mod_right 8 _

/-! ### Blocks -/

/-- A line base determines its tag and index, because distinct pairs have disjoint blocks (`lineBase_disjoint`). -/
theorem lineBase_inj {t u : Tag} {i j : Index} : lineBase t i = lineBase u j ↔ t = u ∧ i = j := by
  constructor
  · intro h
    by_contra hne
    exact lineBase_disjoint (not_and_or.mp hne) 0 0 (by rw [h])
  · rintro ⟨rfl, rfl⟩
    rfl

/-- Two addresses lie in one block exactly when they have the same tag and index. -/
theorem blockBase_eq_iff (a b : Addr) :
    (addressFields a).blockBase = (addressFields b).blockBase ↔
      (addressFields a).tag = (addressFields b).tag ∧ (addressFields a).index = (addressFields b).index := by
  rw [← lineBase_addressFields, ← lineBase_addressFields, lineBase_inj]

/-! ### The obligations -/

/-- Settles O11: `addressOf` and `addressFields` are inverse to each other, and a line base determines its tag and index. -/
theorem addressDecompositionIsABijection : Obligations.AddressDecompositionIsABijection := by
  unfold Obligations.AddressDecompositionIsABijection
  exact ⟨addressOf_addressFields, addressFields_addressOf, blockBase_eq_iff⟩

/-- Settles O10: the line base of the fields is the block base, whose bits 2:0 are clear, so that the sum has no carry. -/
theorem addressRecomposes : Obligations.AddressRecomposes := by
  unfold Obligations.AddressRecomposes
  exact fun a => ⟨lineBase_addressFields a, blockBase_toNat_add_offset_toNat a, blockBase_low_bits a⟩

end Sys2Proof.Machine
end

section
/-! PROOFS. The obligations of 41_cache_controller.md: what a hit and a miss do to memory and to the dirty bit (R126, R128), and the
write-back of the evicted line (R122, R123). -/

namespace Sys2Proof.Machine

/-! ### A record that runs -/

/-- A record that is accepted and meets no fault condition is executed (43_arbiter.md R192). -/
theorem exec_of_runsRecord {i : Instr} {s : State} (h : RunsRecord i s) : exec i s = .next (executed i s) := by
  obtain ⟨haccepting, hfault⟩ := runsRecord_iff.1 h
  exact exec_of_ok haccepting hfault

/-! ### The line of an executed record (R126, R128) -/

/-- The dirty bit after a record: set by STR; LDR keeps it on a hit and clears it on a miss. -/
theorem executed_dirty (i : Instr) (s : State) :
    ((executed i s).line (Instr.fields i).index).dirty =
      (decide (i.op = .str) || (recordHit i s && (s.line (Instr.fields i).index).dirty)) := by
  cases i with
  | ldr r a => rw [executed_ldr_line, makeResident_dirty]; rfl
  | str r a => rw [executed_str_line]; rfl

theorem executed_dirty_of_str {i : Instr} (h : i.op = .str) (s : State) :
    ((executed i s).line (Instr.fields i).index).dirty = true := by
  simp [executed_dirty, h]

theorem executed_dirty_of_miss {i : Instr} {s : State} (h : recordHit i s = false) :
    ((executed i s).line (Instr.fields i).index).dirty = decide (i.op = .str) := by
  simp [executed_dirty, h]

/-- On a hit LDR leaves every line as it was. -/
theorem executed_line_of_ldr_hit {i : Instr} {s : State} (hop : i.op = .ldr) (hhit : recordHit i s = true) (j : Index) :
    (executed i s).line j = s.line j := by
  cases i with
  | ldr r a => rw [executed_ldr_line, makeResident_hit s hhit]
  | str r a => cases hop

theorem executed_tag_of_hit {i : Instr} {s : State} (h : recordHit i s = true) :
    ((executed i s).line (Instr.fields i).index).tag = (s.line (Instr.fields i).index).tag := by
  rw [executed_tag, ((lookup_iff ..).1 h).2]

/-! ### Raw memory after a record (R122, R123, R128) -/

theorem executed_mem_of_hit {i : Instr} {s : State} (h : recordHit i s = true) : (executed i s).mem = s.mem := by
  rw [executed_mem, makeResident_hit s h]

theorem executed_mem_of_miss {i : Instr} {s : State} (h : recordHit i s = false) :
    (executed i s).mem =
      (missLine s (Instr.fields i).index (Instr.fields i).tag (Instr.fields i).blockBase).mem := by
  rw [executed_mem, makeResident_miss s h]

theorem needsWriteBack_iff (s : State) (i : Index) :
    needsWriteBack s i = true ↔ (s.line i).valid = true ∧ (s.line i).dirty = true := by
  simp [needsWriteBack]

/-- A miss on a line that is not written back touches no memory: the fill only reads it. -/
theorem missLine_mem_of_clean {s : State} {i : Index} (h : needsWriteBack s i = false) (t : Tag) (base : Addr) :
    (missLine s i t base).mem = s.mem := by
  simp [missLine, fillLine, h]

/-- Outside the eight bytes of the resident line's own block the miss procedure changes no byte of memory. -/
theorem missLine_read_outside (s : State) {i : Index} {b : Nat}
    (h : b < (lineBase (s.line i).tag i).toNat ∨ (lineBase (s.line i).tag i).toNat + 8 ≤ b) (t : Tag) (base : Addr) :
    Memory.read (missLine s i t base).mem b = Memory.read s.mem b := by
  have houtside : ∀ k : Offset, b ≠ (lineBase (s.line i).tag i).toNat + k.toNat := by
    intro k
    have hk := k.isLt
    omega
  exact missLine_read_other s (.inr houtside) t base

/-! ### The obligations -/

/-- Settles O20, by the outcome of the record's lookup. -/
theorem dirtyBitAfterAnAccess : Obligations.DirtyBitAfterAnAccess := by
  unfold Obligations.DirtyBitAfterAnAccess
  intro i s hruns
  refine ⟨executed i s, Instr.fields i, exec_of_runsRecord hruns, rfl, fun hhit => ?_, executed_dirty_of_miss⟩
  exact ⟨executed_mem_of_hit hhit, executed_valid i s, executed_tag_of_hit hhit,
    fun hldr => executed_line_of_ldr_hit hldr hhit _, fun hstr => executed_dirty_of_str hstr s⟩

/-- Settles O21, by whether the resident line is valid and dirty. -/
theorem aMissWritesBackTheDirtyLine : Obligations.AMissWritesBackTheDirtyLine := by
  unfold Obligations.AMissWritesBackTheDirtyLine
  rintro i s f hruns rfl hmiss
  refine ⟨executed i s, _, _, exec_of_runsRecord hruns, rfl, rfl, ?_, writeBack_lines s _⟩
  rw [executed_mem_of_miss hmiss]
  split
  next hdirty =>
    have hwrites := (needsWriteBack_iff ..).2 hdirty
    exact ⟨missLine_read_evicted s hwrites _ _, fun b hb => missLine_read_outside s hb _ _⟩
  next hclean =>
    exact missLine_mem_of_clean (Bool.eq_false_iff.2 fun hwrites => hclean ((needsWriteBack_iff ..).1 hwrites)) _ _

end Sys2Proof.Machine
end

section
/-! PROOFS. The obligations of 43_arbiter.md: when a record is accepted (R191), the end of the stream (R198) and the missing
instruction source (R201). -/

namespace Sys2Proof.Machine

/-! ### Acceptance of a record (R191) -/

theorem exec_of_not_accepting {s : State} (h : ¬ s.accepting = true) (i : Instr) :
    exec i s = .fault .recordNotAccepted := by
  rw [exec_eq, if_neg h]

/-- An accepted record always has a next state: fault entry, or the state after its execution (R192). -/
theorem exists_exec_next_of_accepting {s : State} (h : s.accepting = true) (i : Instr) : ∃ t, exec i s = .next t := by
  cases hf : recordFault i with
  | some code => exact ⟨_, exec_of_fault h hf⟩
  | none => exact ⟨_, exec_of_ok h hf⟩

theorem exists_exec_next_iff (i : Instr) (s : State) : (∃ t, exec i s = .next t) ↔ s.accepting = true :=
  ⟨fun ⟨_, ht⟩ => (exec_cases ht).1, fun h => exists_exec_next_of_accepting h i⟩

/-- A presented record has no step exactly where the block is not accepting: an accepted one has a next state instead. -/
theorem exec_eq_recordNotAccepted_iff (i : Instr) (s : State) :
    exec i s = .fault .recordNotAccepted ↔ ¬ s.accepting = true := by
  refine ⟨fun hstop haccepting => ?_, fun h => exec_of_not_accepting h i⟩
  obtain ⟨t, hnext⟩ := exists_exec_next_of_accepting haccepting i
  cases hstop.symm.trans hnext

/-- Settles O29: `exec` stops or answers a next state by `State.accepting` alone, which is R191's condition. -/
theorem recordsAreAcceptedOnlyWhenRunningAndIdle : Obligations.RecordsAreAcceptedOnlyWhenRunningAndIdle := by
  unfold Obligations.RecordsAreAcceptedOnlyWhenRunningAndIdle
  intro i s
  rw [← accepting_iff]
  exact ⟨exec_eq_recordNotAccepted_iff i s, exists_exec_next_iff i s⟩

/-! ### The step of a phase without a presented record -/

theorem step_of_launch {s : State} (h : s.phase = .launch) : step s = .next (launch s) := by
  simp only [step, h]

theorem step_of_streamEnd {s : State} (hphase : s.phase = .running) (hempty : s.host.stream = [])
    (hends : s.host.streamEnds = true) : step s = .next (endOfStream s) := by
  simp only [step, hphase, hempty, hends, if_true]

/-- The final phases have no outgoing transition (10_state.md R31). -/
theorem step_of_finalPhase {s : State} (h : s.phase = .done ∨ s.phase = .faulted ∨ s.phase = .aborted) :
    step s = .fault .noStepInFinalPhase := by
  obtain hdone | hfaulted | haborted := h
  · simp only [step, hdone]
  · exact step_of_faulted hfaulted
  · simp only [step, haborted]

/-! ### The launch without a source (R201) -/

theorem launch_of_missingSource {s : State} (h : s.host.sourceReadable = false) :
    launch s = { s with phase := .aborted } := by
  simp [launch, h]

/-- Settles O44: the launch is the first step after construction, and without a source it only sets the phase. -/
theorem missingSourceAbortsTheRun : Obligations.MissingSourceAbortsTheRun := by
  unfold Obligations.MissingSourceAbortsTheRun
  intro verbose host hmissing
  have hlaunch : launch (State.construct verbose host) = { State.construct verbose host with phase := .aborted } :=
    launch_of_missingSource hmissing
  exact ⟨_, step_of_launch (State.construct_phase ..), hlaunch, by simp [hlaunch],
    step_of_finalPhase (.inr (.inr (by rw [hlaunch])))⟩

/-! ### The end of the stream (R198) -/

/-- The two emissions and the phase are all that the end of the stream changes, the lines and memory among what it keeps. -/
theorem endOfStream_eq (s : State) :
    endOfStream s = { s with phase := .done, out := s.out ++ [.snapshot s.snapshot, .ended] } := by
  simp [endOfStream, State.emit]

/-- Settles O45: with the end signalled the step is `endOfStream`, and phase Done is final. -/
theorem endOfStreamEndsTheRun : Obligations.EndOfStreamEndsTheRun := by
  unfold Obligations.EndOfStreamEndsTheRun
  intro s hphase hempty hends
  exact ⟨_, step_of_streamEnd hphase hempty hends, endOfStream_eq s, step_of_finalPhase (.inl (endOfStream_phase s))⟩

end Sys2Proof.Machine
end

section
/-! PROOFS. The obligations of 44_trace_snapshot.md: what a trace record says (R220, R221) and what a snapshot shows (R224). -/

namespace Sys2Proof.Machine

/-! ### The trace of an executed record (R220) -/

/-- The trace record that the execution of a record emits (43_arbiter.md R192). -/
def recordTrace (i : Instr) (s : State) : Trace :=
  traceOf i (Instr.fields i) (recordHit i s) (accessLine i (Instr.fields i) (makeResident s (Instr.fields i))).2

theorem eventsOfRecord_executed (i : Instr) (s : State) : EventsOfRecord s (recordTrace i s) (executed i s) :=
  executed_out i s

/-- A register value that passes the check of 42_load_store.md R160 is the number of its operand. -/
theorem regOperand_toNat {r : Nat} (h : r ≤ 15) : (regOperand r).toNat = r := by
  rw [regOperand, BitVec.toNat_ofNat]; omega

/-- An address value that passes the check of 42_load_store.md R160 is the number of its operand. -/
theorem addrOperand_toNat {a : Nat} (h : a ≤ 0xFFFF) : (addrOperand a).toNat = a := by
  rw [addrOperand, BitVec.toNat_ofNat]; omega

/-! ### The value of the trace (R221). On a hit and on a miss alike it is read after the line was made resident. -/

theorem executed_readReg_of_ldr {i : Instr} (h : i.op = .ldr) (s : State) :
    (executed i s).readReg (recordTrace i s).reg = (recordTrace i s).value := by
  cases i with
  | ldr r a => simp [executed, recordTrace, traceOf, accessLine, Instr.reg, State.readReg_writeReg]
  | str r a => cases h

/-- The miss handling before the store changes no register. -/
theorem readReg_of_str {i : Instr} (h : i.op = .str) (s : State) :
    s.readReg (recordTrace i s).reg = (recordTrace i s).value := by
  cases i with
  | ldr r a => cases h
  | str r a => exact (makeResident_readReg s _ _).symm

/-- The line of a STR holds some block with the traced value stored at the traced offset. -/
theorem executed_data_of_str {i : Instr} (h : i.op = .str) (s : State) :
    ∃ d : Block, ((executed i s).line (recordTrace i s).index).data =
      storePair d (recordTrace i s).offset (recordTrace i s).value := by
  cases i with
  | ldr r a => cases h
  | str r a => exact ⟨_, by rw [← readReg_of_str rfl]; exact congrArg Line.data (executed_str_line r a s)⟩

theorem blockByte_storePair_low (d : Block) (off : Offset) (v : Word) :
    blockByte (storePair d off v) off = v.extractLsb 7 0 := by
  rw [← lowByte_eq_extractLsb]; simp [blockByte_storePair]

theorem blockByte_storePair_high (d : Block) (off : Offset) (v : Word) :
    blockByte (storePair d off v) (off + 1) = v.extractLsb 15 8 := by
  rw [← highByte_eq_extractLsb]; simp [blockByte_storePair]

/-! ### Snapshots (R224) -/

/-- Taking a snapshot appends its event when VERBOSE, and changes nothing else. -/
theorem State.verboseSnapshot_eq (s : State) :
    s.verboseSnapshot = { s with out := s.out ++ if s.verbose then [.snapshot s.snapshot] else [] } := by
  unfold State.verboseSnapshot
  split
  · rfl
  · rw [List.append_nil]

/-! ### The obligations -/

/-- Settles O22: the record's one trace is `recordTrace`, and its value is the one the access moved. -/
theorem traceReportsTheAccess : Obligations.TraceReportsTheAccess := by
  unfold Obligations.TraceReportsTheAccess
  intro i s hruns
  have hnext := exec_of_runsRecord hruns
  obtain ⟨-, -, hreg, haddr, -⟩ := hruns
  refine ⟨executed i s, recordTrace i s, hnext, eventsOfRecord_executed i s, rfl,
    regOperand_toNat hreg, addrOperand_toNat haddr, rfl, rfl, fun hldr => executed_readReg_of_ldr hldr s, fun hstr => ?_⟩
  obtain ⟨d, hdata⟩ := executed_data_of_str hstr s
  rw [hdata]
  exact ⟨readReg_of_str hstr s, blockByte_storePair_low .., blockByte_storePair_high ..⟩

/-- Settles O16: the 128 bytes are a table of raw memory, registers and lines are copied as they stand. -/
theorem snapshotShowsTheState : Obligations.SnapshotShowsTheState := by
  unfold Obligations.SnapshotShowsTheState
  intro s
  have hmem : ∀ k : Fin 128, s.snapshot.mem[k] = Memory.read s.mem k := fun k => by simp [State.snapshot]
  exact ⟨fun _ => rfl, fun _ => rfl, hmem, s.verboseSnapshot_eq⟩

end Sys2Proof.Machine
end

section
/-! PROOFS. The obligations of 60_exceptions.md: the fault record is written once (R247), and a misaligned overlay is a launch fault
(R245). -/

namespace Sys2Proof.Machine

/-! ### The fault record at fault entry (R247) -/

/-- A fault record already set stays, whatever fault is raised (entry 8). -/
theorem State.raise_fault_of_some {s : State} {f : FaultRecord} (h : s.fault = some f) (code : FaultCode) (info : FaultInfo) :
    (s.raise code info).fault = some f := by
  rw [State.raise_fault, h, Option.getD_some]

/-- A fault record that fault entry sets is the one it emits, with the current rc. -/
theorem State.raise_sets_fault {s : State} {f : FaultRecord} {code : FaultCode} {info : FaultInfo} (hnone : s.fault = none)
    (hset : (s.raise code info).fault = some f) :
    (s.raise code info).out = s.out ++ [.fault f] ∧ (s.raise code info).phase = .faulted ∧ f.rc = s.rc := by
  rw [State.raise_of_fault_none hnone] at hset ⊢
  cases hset
  exact ⟨rfl, rfl, rfl⟩

/-! ### What a step does to the fault record -/

/-- The launch leaves the fault record alone, except by fault entry. -/
theorem launch_fault_cases (s : State) :
    (launch s).fault = s.fault ∨ ∃ code info, launch s = s.raise code info := by
  obtain ⟨-, hs⟩ | ⟨base, -, -, hs⟩ | ⟨-, -, hs⟩ := launch_cases s
  · exact .inl (by rw [hs])
  · exact .inr ⟨_, _, hs⟩
  · exact .inl (by rw [hs, startRun_fault])

/-- A step leaves the fault record alone, except by fault entry; the record that faults was taken from the stream before it. -/
theorem step_fault_cases {s t : State} (h : step s = .next t) :
    t.fault = s.fault ∨ ∃ rest code info, t = (s.withStream rest).raise code info := by
  obtain ⟨-, rfl⟩ | ⟨req, rest, code, -, -, -, rfl⟩ | ⟨req, rest, -, -, -, rfl⟩ | ⟨-, -, -, rfl⟩ := step_outcomes h
  · exact (launch_fault_cases s).imp_right fun ⟨code, info, hs⟩ => ⟨s.host.stream, code, info, hs⟩
  · exact .inr ⟨rest, code, _, rfl⟩
  · exact .inl (executed_fault ..)
  · exact .inl (endOfStream_fault s)

/-- Settles O34: only fault entry writes the fault record, and it keeps a record that is set. -/
theorem faultRecordIsWrittenOnce : Obligations.FaultRecordIsWrittenOnce := by
  unfold Obligations.FaultRecordIsWrittenOnce
  refine ⟨rfl, fun s t h => ?_⟩
  obtain hkept | ⟨rest, code, info, rfl⟩ := step_fault_cases h
  · exact ⟨fun f hf => hkept.trans hf, fun f hnone hset => by simp [hkept, hnone] at hset⟩
  · exact ⟨fun f hf => State.raise_fault_of_some (s := s.withStream rest) hf code info,
      fun f hnone hset => State.raise_sets_fault (s := s.withStream rest) hnone hset⟩

/-! ### The launch with a misaligned overlay (R245) -/

theorem launch_of_misaligned {s : State} {base : Nat} (hsource : s.host.sourceReadable = true)
    (hfirst : firstMisaligned (imageOverlays s.host.image) = some base) :
    launch s = s.raise .imageMisaligned (.overlayBase base) := by
  simp [launch, hsource, hfirst]

/-- Settles O43: the launch is fault entry at the first illegal base, from a state with no fault, no event and rc 0. -/
theorem misalignedImageIsALaunchFault : Obligations.MisalignedImageIsALaunchFault := by
  unfold Obligations.MisalignedImageIsALaunchFault
  intro verbose host before after o hsource himage hbefore ho
  have hfirst : firstMisaligned (imageOverlays host.image) = some o.base := by
    rw [himage, firstMisaligned_eq_some before o after hbefore ho]
  have hstep : step (State.construct verbose host) =
      .next ((State.construct verbose host).raise .imageMisaligned (.overlayBase o.base)) := by
    rw [step_of_launch (State.construct_phase ..), launch_of_misaligned hsource hfirst]
  exact ⟨_, _, hstep, rfl, rfl, State.raise_of_fault_none (State.construct_fault ..) .., step_of_faulted (State.raise_phase ..)⟩

end Sys2Proof.Machine
end

section
/-! PROOFS. The obligation of 70_reset_and_hazards.md: the values after construction, and no later reset (R270). -/

namespace Sys2Proof.Machine

/-! ### The values construction gives -/

@[simp] theorem State.construct_readReg (v : Bool) (h : HostInputs) (r : RegIndex) :
    (State.construct v h).readReg r = 0 := by
  simp [State.readReg]

@[simp] theorem Line.reset_valid : Line.reset.valid = false := rfl
@[simp] theorem Line.reset_dirty : Line.reset.dirty = false := rfl
@[simp] theorem Line.reset_tag : Line.reset.tag = 0 := rfl

@[simp] theorem blockByte_reset (k : Offset) : blockByte Line.reset.data k = 0 := by
  simp [blockByte, Line.reset]

/-- A line of the constructed block is `Line.reset`, and its memory lists no byte, so that each reads as the reset byte. -/
theorem atReset_construct (v : Bool) (h : HostInputs) : AtReset (State.construct v h) := by
  have hregs : ∀ r, (State.construct v h).readReg r = 0 := State.construct_readReg v h
  have hmem : ∀ a : Addr, Memory.read (State.construct v h).mem a.toNat = 0 := fun a => Memory.read_nil a.toNat
  have hlines : ∀ i, ((State.construct v h).line i).valid = false ∧ ((State.construct v h).line i).dirty = false
      ∧ ((State.construct v h).line i).tag = 0 ∧ ∀ k, blockByte ((State.construct v h).line i).data k = 0 := by simp
  exact ⟨hregs, hmem, hlines, State.construct_rc .., State.construct_phase .., State.construct_fault ..,
    State.construct_fsm .., State.construct_out ..⟩

/-! ### No later reset -/

theorem launch_phase_ne_launch (s : State) : (launch s).phase ≠ .launch := by
  obtain ⟨-, hp⟩ | ⟨-, -, hp⟩ | ⟨-, -, hp⟩ := launch_phase s <;> simp [hp]

/-- Each of the four outcomes of a step sets a phase other than Launch, or keeps Running. -/
theorem step_phase_ne_launch {s t : State} (h : step s = .next t) : t.phase ≠ .launch := by
  obtain ⟨-, rfl⟩ | ⟨req, rest, code, -, -, -, rfl⟩ | ⟨req, rest, hp, -, -, rfl⟩ | ⟨-, -, -, rfl⟩ := step_outcomes h
  · exact launch_phase_ne_launch s
  · simp
  · simp [hp]
  · simp

/-- Settles O13: construction gives R270's values for every VERBOSE and host, reset is one construction, and no step leads back. -/
theorem valuesAfterConstruction : Obligations.ValuesAfterConstruction := by
  unfold Obligations.ValuesAfterConstruction
  exact ⟨atReset_construct .., atReset_construct, fun _ _ => step_phase_ne_launch⟩

end Sys2Proof.Machine
end

section
/-! PROOFS. The obligations of 30_encoding.md on the request word (R85, R87, R88) and on the fault conditions a word can present. -/

namespace Sys2Proof.Machine

/-! ### The word of a record, read back (R85) -/

/-- A record is its operation and its two numbers. -/
theorem ofParts_fields (i : Instr) : Instr.ofParts i.op i.reg i.addr = i := by cases i <;> rfl

theorem wordOp_encode (i : Instr) : wordOp (encode i) = i.op := by
  have hrow : encode i &&& opMask = opMatch i.op := by
    cases i with
    | ldr r a => exact Laws.EncodesInItsRow.ldr r a
    | str r a => exact Laws.EncodesInItsRow.str r a
  exact (wordOp_eq_iff _ _).2 hrow

/-- The ranges of a well-formed record in numbers (30_encoding.md R80). -/
theorem wellFormed_iff (i : Instr) : WellFormed i ↔ i.reg < 16 ∧ i.addr < 65536 := Iff.rfl

/-- The three fields of a request word, each in its own bits: the word as a sum. -/
theorem encode_toNat_add {i : Instr} (h : WellFormed i) :
    (encode i).toNat = opBit i.op * 2 ^ 20 + i.reg * 2 ^ 16 + i.addr := by
  obtain ⟨hreg, haddr⟩ := (wellFormed_iff i).1 h
  have hlow : i.reg * 2 ^ 16 + i.addr < 2 ^ 20 := by omega
  rw [encode_toNat h, Nat.or_assoc, Nat.shiftLeft_eq, Nat.shiftLeft_eq, Nat.mul_comm i.reg,
    ← Nat.two_pow_add_eq_or_of_lt haddr, Nat.mul_comm _ (2 ^ 20), Nat.mul_comm (2 ^ 16),
    ← Nat.two_pow_add_eq_or_of_lt hlow]
  omega

theorem wordReg_toNat (w : RequestWord) : (wordReg w).toNat = w.toNat / 2 ^ 16 % 2 ^ 4 := by
  rw [wordReg, BitVec.toNat_setWidth, BitVec.toNat_ushiftRight, Nat.shiftRight_eq_div_pow]

theorem wordAddr_toNat (w : RequestWord) : (wordAddr w).toNat = w.toNat % 2 ^ 16 := by
  rw [wordAddr, BitVec.toNat_setWidth]

theorem wordReg_encode {i : Instr} (h : WellFormed i) : (wordReg (encode i)).toNat = i.reg := by
  rw [wordReg_toNat, encode_toNat_add h]
  obtain ⟨hreg, haddr⟩ := (wellFormed_iff i).1 h
  omega

theorem wordAddr_encode {i : Instr} (h : WellFormed i) : (wordAddr (encode i)).toNat = i.addr := by
  rw [wordAddr_toNat, encode_toNat_add h]
  obtain ⟨-, haddr⟩ := (wellFormed_iff i).1 h
  omega

/-- Settles O1: each of the three fields reads back from the bits it was written to. -/
theorem decodeEncodeIsIdentity : Obligations.DecodeEncodeIsIdentity := by
  unfold Obligations.DecodeEncodeIsIdentity
  intro i h
  rw [decode, wordOp_encode, wordReg_encode h, wordAddr_encode h, ofParts_fields]

/-! ### Every word is the word of a record (R88) -/

theorem wellFormed_decode (w : RequestWord) : WellFormed (decode w) :=
  ⟨by rw [Instr.RegInRange, decode_reg]; exact (wordReg w).isLt,
    by rw [Instr.AddrInRange, decode_addr]; exact (wordAddr w).isLt⟩

/-- Bit 20 of a word is the field of the operation it presents. -/
theorem opBit_wordOp (w : RequestWord) : opBit (wordOp w) = w.toNat / 2 ^ 20 := by
  have hlt : w.toNat / 2 ^ 20 < 2 := by omega
  have hbit : w.getLsbD 20 = decide (w.toNat / 2 ^ 20 = 1) := by
    rw [BitVec.getLsbD, Nat.testBit_eq_decide_div_mod_eq, Nat.mod_eq_of_lt hlt]
  rw [wordOp_eq_ite_bit, hbit]
  by_cases hone : w.toNat / 2 ^ 20 = 1
  · simp only [hone, decide_true, if_true, opBit]
  · simp only [hone, decide_false, Bool.false_eq_true, if_false, opBit]
    omega

/-- Settles O2: the fields of a decoded word are in range, and their sum is the word. -/
theorem everyRequestWordIsARecord : Obligations.EveryRequestWordIsARecord := by
  unfold Obligations.EveryRequestWordIsARecord
  refine fun w => ⟨wellFormed_decode w, BitVec.eq_of_toNat_eq ?_⟩
  rw [encode_toNat_add (wellFormed_decode w), decode_op, decode_reg, decode_addr, opBit_wordOp, wordReg_toNat,
    wordAddr_toNat]
  omega

/-! ### Numbers at the port (R85) -/

/-- Settles O5: both readers test the number, or its low bits, against the width of the port. -/
theorem widerNumbersAreRejected : Obligations.WiderNumbersAreRejected := by
  unfold Obligations.WiderNumbersAreRejected
  refine fun w => ⟨rfl, ?_⟩
  rw [decodeTableWord, decodeNumber]
  by_cases hfits : w % 2 ^ 24 < 2 ^ 21
  · simp only [Config.requestBits, hfits, if_true]
  · simp only [Config.requestBits, hfits, if_false]

/-- Settles O4: the model decodes the six words of the test vectors. -/
theorem sampleRequestWordsDecode : Obligations.SampleRequestWordsDecode := by
  unfold Obligations.SampleRequestWordsDecode
  decide

/-! ### The fault conditions of a request word (60_exceptions.md section 1) -/

/-- Bits 2:0 of a word are the offset of its address. -/
theorem extractLsb_low_eq_seven_iff (w : RequestWord) : w.extractLsb 2 0 = 7 ↔ (wordAddr w).toNat % 8 = 7 := by
  rw [← BitVec.toNat_inj, BitVec.extractLsb_toNat, wordAddr_toNat, Nat.shiftRight_zero]
  have hmod : w.toNat % 2 ^ 16 % 8 = w.toNat % 8 := by omega
  rw [hmod]
  rfl

/-- Settles O6: a decoded record passes both range checks, so that only the offset test is left. -/
theorem portWordsFaultOnlyAtOffsetSeven : Obligations.PortWordsFaultOnlyAtOffsetSeven := by
  unfold Obligations.PortWordsFaultOnlyAtOffsetSeven
  intro w
  obtain ⟨hreg, haddr⟩ := (wellFormed_iff _).1 (wellFormed_decode w)
  rw [recordFault, if_neg (by omega), if_neg (by omega)]
  simp only [offset_addrOperand_eq_seven, decode_addr, extractLsb_low_eq_seven_iff]

end Sys2Proof.Machine
end

section
/-! PROOFS. The obligations on texts: the text of a record reads back (30_encoding.md R81, R82), and the text of a trace record
determines it (44_trace_snapshot.md R222). -/

namespace Sys2Proof.Machine

/-! ### Tokens -/

/-- Characters that are not blank are gathered into the token being read. -/
theorem tokensFrom_append {t : List Char} (ht : ∀ c ∈ t, isBlank c = false) (cur rest : List Char) :
    tokensFrom cur (t ++ rest) = tokensFrom (t.reverse ++ cur) rest := by
  induction t generalizing cur with
  | nil => rfl
  | cons c t ih =>
    have hc : isBlank c = false := ht c (List.mem_cons_self ..)
    have htail := ih (fun d hd => ht d (List.mem_cons_of_mem _ hd)) (c :: cur)
    simp [tokensFrom, hc, htail]

theorem tokens_append_space {t : List Char} (hne : t ≠ []) (ht : ∀ c ∈ t, isBlank c = false) (rest : List Char) :
    tokens (t ++ ' ' :: rest) = t :: tokens rest := by
  rw [tokens, tokensFrom_append ht]
  simp [tokensFrom, tokens, hne, isBlank]

theorem tokens_last {t : List Char} (hne : t ≠ []) (ht : ∀ c ∈ t, isBlank c = false) : tokens t = [t] := by
  rw [tokens, ← List.append_nil t, tokensFrom_append ht]
  simp [tokensFrom, hne]

/-! ### Hexadecimal numbers read back -/

theorem isBlank_of_mem_hexText {w n : Nat} : ∀ c ∈ hexText w n, isBlank c = false := by
  induction w generalizing n with
  | zero => intro c hc; cases hc
  | succ w ih =>
    intro c hc
    rw [hexText, List.mem_append, List.mem_singleton] at hc
    obtain hc | rfl := hc
    · exact ih c hc
    · exact isBlank_hexChar_of_lt _ (Nat.mod_lt _ (by decide))

theorem hexText_ne_nil (w n : Nat) : hexText (w + 1) n ≠ [] := by simp [hexText]

theorem hexFrom_append (acc : Nat) (l m : List Char) : hexFrom acc (l ++ m) = (hexFrom acc l).bind (hexFrom · m) := by
  induction l generalizing acc with
  | nil => rfl
  | cons c l ih =>
    simp only [List.cons_append, hexFrom]
    cases hexDigit c with
    | some d => exact ih _
    | none => rfl

/-- The last digit read is the remainder by 16, and the digits before it are the quotient. -/
theorem hexFrom_hexText {w n : Nat} (h : n < 16 ^ w) : hexFrom 0 (hexText w n) = some n := by
  induction w generalizing n with
  | zero =>
    have hn : n = 0 := by omega
    rw [hn]
    rfl
  | succ w ih =>
    have hdigit : hexDigit (hexChar (n % 16)) = some (n % 16) := hexDigit_hexChar_of_lt _ (Nat.mod_lt _ (by decide))
    rw [pow_succ] at h
    rw [hexText, hexFrom_append, ih (by omega)]
    simp [hexFrom, hdigit, Nat.div_add_mod']

theorem hexNumber_hexText {w n : Nat} (h : n < 16 ^ (w + 1)) : hexNumber (hexText (w + 1) n) = some n := by
  have hread := hexFrom_hexText h
  cases htext : hexText (w + 1) n with
  | nil => exact absurd htext (hexText_ne_nil w n)
  | cons c cs => rw [htext] at hread; exact hread

/-! ### Mnemonics -/

theorem mnemonicText_ne_nil (op : Op) : mnemonicText op ≠ [] := by cases op <;> decide

theorem isBlank_of_mem_mnemonicText (op : Op) : ∀ c ∈ mnemonicText op, isBlank c = false := by
  cases op <;> simp [mnemonicText, isBlank]

theorem mnemonicOp_mnemonicText (op : Op) : mnemonicOp (mnemonicText op) = some op := by cases op <;> rfl

@[simp] theorem mnemonicText_length (op : Op) : (mnemonicText op).length = 3 := by cases op <;> rfl

theorem mnemonicText_inj {p q : Op} (h : mnemonicText p = mnemonicText q) : p = q := by
  have hread := mnemonicOp_mnemonicText p
  rw [h, mnemonicOp_mnemonicText q] at hread
  exact (Option.some.inj hread).symm

/-! ### The text of a record -/

theorem tokens_recordText (i : Instr) : tokens (recordText i) = [mnemonicText i.op, hexText 1 i.reg, hexText 4 i.addr] := by
  have hshape : recordText i = mnemonicText i.op ++ ' ' :: (hexText 1 i.reg ++ ' ' :: hexText 4 i.addr) := by
    simp [recordText]
  rw [hshape, tokens_append_space (mnemonicText_ne_nil _) (isBlank_of_mem_mnemonicText _),
    tokens_append_space (hexText_ne_nil 0 _) isBlank_of_mem_hexText, tokens_last (hexText_ne_nil 3 _) isBlank_of_mem_hexText]

/-- Settles O7: the text splits into its three tokens, and each reads back. -/
theorem recordTextReadsBack : Obligations.RecordTextReadsBack := by
  unfold Obligations.RecordTextReadsBack
  intro i h
  obtain ⟨hreg, haddr⟩ := (wellFormed_iff i).1 h
  have hr : hexNumber (hexText 1 i.reg) = some i.reg := hexNumber_hexText hreg
  have ha : hexNumber (hexText 4 i.addr) = some i.addr := hexNumber_hexText haddr
  simp only [parseLine, tokens_recordText, mnemonicOp_mnemonicText, hr, ha, ofParts_fields]

/-! ### The text of a trace record -/

/-- The text of a bit vector's number determines it, when the digits are wide enough for the width. -/
theorem hexText_toNat_inj {w n : Nat} (hw : 2 ^ n ≤ 16 ^ w) {a b : BitVec n} (h : hexText w a.toNat = hexText w b.toNat) :
    a = b :=
  BitVec.eq_of_toNat_eq (hexText_inj w _ _ (a.isLt.trans_le hw) (b.isLt.trans_le hw) h)

/-- A column of fixed width and the space after it, cut from two equal lines. -/
theorem column_inj {l m l' m' : List Char} (hlen : l.length = m.length) (h : l ++ ([' '] ++ l') = m ++ ([' '] ++ m')) :
    l = m ∧ l' = m' := by
  obtain ⟨hcolumn, hrest⟩ := List.append_inj h hlen
  exact ⟨hcolumn, List.append_cancel_left hrest⟩

/-- Settles O51: every field has its own columns in the line, and each field's text determines it. -/
theorem traceTextDeterminesTheTrace : Obligations.TraceTextDeterminesTheTrace := by
  unfold Obligations.TraceTextDeterminesTheTrace
  intro t u h
  simp only [traceText, List.append_assoc] at h
  obtain ⟨hop, h⟩ := column_inj (by simp) h
  obtain ⟨hreg, h⟩ := column_inj (by simp) h
  obtain ⟨haddr, h⟩ := column_inj (by simp) h
  obtain ⟨htag, h⟩ := column_inj (by simp) h
  obtain ⟨hindex, h⟩ := column_inj (by simp) h
  obtain ⟨hoffset, h⟩ := List.append_inj h (by simp)
  obtain ⟨hhit, h⟩ := List.append_inj h rfl
  obtain ⟨hvalue, -⟩ := List.append_inj h (by simp)
  have hletter : t.hit = u.hit := by
    cases ht : t.hit <;> cases hu : u.hit <;> simp [ht, hu] at hhit ⊢
  obtain ⟨⟩ := t
  obtain ⟨⟩ := u
  rw [Trace.mk.injEq]
  exact ⟨mnemonicText_inj hop, hexText_toNat_inj (by decide) hreg, hexText_toNat_inj (by decide) haddr,
    hexText_toNat_inj (by decide) htag, hexText_toNat_inj (by decide) hindex, hexText_toNat_inj (by decide) hoffset,
    hletter, hexText_toNat_inj (by decide) hvalue⟩

end Sys2Proof.Machine
end

section
/-! PROOFS. The bit slices of an address (40_address_decoder.md R101), and that the canonical form of a memory is one list for each
memory (10_state.md R24; entry 6). -/

namespace Sys2Proof.Machine

/-! ### The fields of an address as bit slices (R101) -/

/-- The block base is the address with its low three bits replaced by zeros. -/
theorem blockBase_eq_append (a : Addr) : (addressFields a).blockBase = a.extractLsb 15 3 ++ 0b000#3 := by
  apply BitVec.eq_of_toNat_eq
  rw [addressFields_blockBase_toNat, BitVec.toNat_append, BitVec.extractLsb_toNat, Nat.shiftRight_eq_div_pow,
    Nat.shiftLeft_eq]
  simp only [BitVec.toNat_ofNat, Nat.zero_mod, Nat.or_zero]
  omega

/-- Settles O9: each slice is the quotient and remainder that the field is. -/
theorem addressFieldsAreBitSlices : Obligations.AddressFieldsAreBitSlices := by
  unfold Obligations.AddressFieldsAreBitSlices
  refine fun a => ⟨BitVec.eq_of_toNat_eq ?_, BitVec.eq_of_toNat_eq ?_, BitVec.eq_of_toNat_eq ?_, blockBase_eq_append a⟩
  · rw [addressFields_offset_toNat, BitVec.extractLsb_toNat, Nat.shiftRight_zero]
  · rw [addressFields_index_toNat, BitVec.extractLsb_toNat, Nat.shiftRight_eq_div_pow]
  · rw [addressFields_tag_toNat, BitVec.extractLsb_toNat, Nat.shiftRight_eq_div_pow]
    omega

/-! ### Canonical memories (entry 6) -/

/-- Below its first cell a canonical memory lists nothing. -/
theorem Memory.read_of_lt {m : Memory} {low a : Nat} (hm : Memory.wfFrom low m = true) (ha : a < low) :
    Memory.read m a = unlistedByte := by
  induction m generalizing low with
  | nil => rfl
  | cons c m ih =>
    obtain ⟨k, v⟩ := c
    obtain ⟨hlow, -, -, htail⟩ := (Memory.wfFrom_cons ..).1 hm
    rw [Memory.read, if_neg (by omega)]
    exact ih htail (by omega)

theorem Memory.read_cons_self (k : Nat) (v : Byte) (m : Memory) : Memory.read ((k, v) :: m) k = v := by
  rw [Memory.read, if_pos rfl]

/-- A canonical memory's first cell reads as a byte that an unlisted address does not give. -/
theorem Memory.read_head_ne {low k : Nat} {v : Byte} {m : Memory} (hm : Memory.wfFrom low ((k, v) :: m) = true) :
    k < Config.memBytes ∧ Memory.read ((k, v) :: m) k ≠ unlistedByte := by
  obtain ⟨-, hk, hv, -⟩ := (Memory.wfFrom_cons ..).1 hm
  exact ⟨hk, by rwa [Memory.read_cons_self]⟩

/-- Two canonical memories that read alike have the same first address: the lower of two would be unlisted in the other. -/
theorem Memory.head_le_of_read_eq {low k k' : Nat} {v v' : Byte} {m n : Memory}
    (hm : Memory.wfFrom low ((k, v) :: m) = true) (hn : Memory.wfFrom low ((k', v') :: n) = true)
    (h : ∀ a < Config.memBytes, Memory.read ((k, v) :: m) a = Memory.read ((k', v') :: n) a) : k' ≤ k := by
  by_contra hlt
  obtain ⟨hk, hne⟩ := Memory.read_head_ne hm
  obtain ⟨-, hk', hv', htail⟩ := (Memory.wfFrom_cons ..).1 hn
  have hbelow : Memory.wfFrom (k + 1) ((k', v') :: n) = true := (Memory.wfFrom_cons ..).2 ⟨by omega, hk', hv', htail⟩
  exact hne ((h k hk).trans (Memory.read_of_lt hbelow (Nat.lt_succ_self k)))

/-- The tails of two canonical memories with one first cell read alike when the memories do. -/
theorem Memory.read_tail_eq {k : Nat} {v : Byte} {m n : Memory} (hm : Memory.wfFrom (k + 1) m = true)
    (hn : Memory.wfFrom (k + 1) n = true)
    (h : ∀ a < Config.memBytes, Memory.read ((k, v) :: m) a = Memory.read ((k, v) :: n) a) :
    ∀ a < Config.memBytes, Memory.read m a = Memory.read n a := by
  intro a ha
  by_cases hak : k = a
  · rw [Memory.read_of_lt hm (by omega), Memory.read_of_lt hn (by omega)]
  · have hread := h a ha
    rwa [Memory.read, Memory.read, if_neg hak, if_neg hak] at hread

/-- Canonical memories are determined by what they read, cell by cell. -/
theorem Memory.eq_of_read_eq {m n : Memory} {low : Nat} (hm : Memory.wfFrom low m = true) (hn : Memory.wfFrom low n = true)
    (h : ∀ a < Config.memBytes, Memory.read m a = Memory.read n a) : m = n := by
  induction m generalizing n low with
  | nil =>
    cases n with
    | nil => rfl
    | cons d n =>
      obtain ⟨hk, hne⟩ := Memory.read_head_ne hn
      exact absurd (h _ hk).symm hne
  | cons c m ih =>
    obtain ⟨k, v⟩ := c
    cases n with
    | nil =>
      obtain ⟨hk, hne⟩ := Memory.read_head_ne hm
      exact absurd (h _ hk) hne
    | cons d n =>
      obtain ⟨k', v'⟩ := d
      obtain rfl : k = k' :=
        le_antisymm (Memory.head_le_of_read_eq hn hm fun a ha => (h a ha).symm) (Memory.head_le_of_read_eq hm hn h)
      obtain ⟨-, hk, -, hmtail⟩ := (Memory.wfFrom_cons ..).1 hm
      obtain ⟨-, -, -, hntail⟩ := (Memory.wfFrom_cons ..).1 hn
      obtain rfl : v = v' := by
        have hread := h k hk
        rwa [Memory.read_cons_self, Memory.read_cons_self] at hread
      rw [ih hmtail hntail (Memory.read_tail_eq hmtail hntail h)]

/-- Settles O12, by induction on the two lists. -/
theorem canonicalMemoriesThatReadAlikeAreEqual : Obligations.CanonicalMemoriesThatReadAlikeAreEqual := by
  unfold Obligations.CanonicalMemoriesThatReadAlikeAreEqual
  refine fun m n hm hn h => Memory.eq_of_read_eq hm hn fun a ha => ?_
  have hread := h (BitVec.ofNat 16 a)
  rwa [BitVec.toNat_ofNat, Nat.mod_eq_of_lt ha] at hread

end Sys2Proof.Machine
end

section
/-! PROOFS. The coherent view (20_memory.md R65 to R67): what making a line resident and executing a record do to raw memory, to the
agreement of clean lines with it, and to the view. -/

namespace Sys2Proof.Machine

/-! ### The view of a byte, by the lookup of its address -/

theorem view_of_hit {s : State} {b : Addr} (h : lookup s (addressFields b).index (addressFields b).tag = true) :
    s.view b = blockByte (s.line (addressFields b).index).data (addressFields b).offset := by
  simp [State.view, h]

theorem view_of_miss {s : State} {b : Addr} (h : lookup s (addressFields b).index (addressFields b).tag = false) :
    s.view b = Memory.read s.mem b.toNat := by
  simp [State.view, h]

/-- The view of a byte reads one line and one byte of memory. -/
theorem view_congr {s t : State} {b : Addr} (hline : s.line (addressFields b).index = t.line (addressFields b).index)
    (hmem : Memory.read s.mem b.toNat = Memory.read t.mem b.toNat) : s.view b = t.view b := by
  simp only [State.view, lookup_congr hline, hline, hmem]

/-- Where the view is not raw memory, a dirty line holds the byte: a clean line would agree with memory. -/
theorem dirty_of_view_ne {s : State} {b : Addr} (hclean : CleanAgreesWithMemory s)
    (h : s.view b ≠ Memory.read s.mem b.toNat) :
    (s.line (addressFields b).index).valid = true ∧ (s.line (addressFields b).index).dirty = true
      ∧ (s.line (addressFields b).index).tag = (addressFields b).tag := by
  cases hlookup : lookup s (addressFields b).index (addressFields b).tag with
  | false => exact absurd (view_of_miss hlookup) h
  | true =>
    obtain ⟨hvalid, htag⟩ := (lookup_iff ..).1 hlookup
    refine ⟨hvalid, ?_, htag⟩
    by_contra hdirty
    have hagree := hclean (addressFields b).index (addressFields b).offset hvalid (Bool.eq_false_iff.2 hdirty)
    rw [htag, ← toNat_eq_lineBase_add_offset, ← view_of_hit hlookup] at hagree
    exact h hagree

/-- Settles O41. -/
theorem memoryIsStaleOnlyUnderADirtyLine : Obligations.MemoryIsStaleOnlyUnderADirtyLine := by
  unfold Obligations.MemoryIsStaleOnlyUnderADirtyLine
  exact fun s a hclean h => dirty_of_view_ne hclean h

/-! ### Raw memory when a line is made resident (41_cache_controller.md R122, R123) -/

/-- An access writes back exactly when it misses a line that the miss procedure writes back. -/
theorem writesBack_iff {s : State} {f : AddressFields} :
    WritesBack f s ↔ lookup s f.index f.tag = false ∧ needsWriteBack s f.index = true := by
  rw [needsWriteBack_iff]; rfl

theorem makeResident_read_evicted {s : State} {f : AddressFields} (h : WritesBack f s) (k : Offset) :
    Memory.read (makeResident s f).mem ((lineBase (s.line f.index).tag f.index).toNat + k.toNat) =
      blockByte (s.line f.index).data k := by
  obtain ⟨hmiss, hwrites⟩ := writesBack_iff.1 h
  rw [makeResident_miss s hmiss, missLine_read_evicted s hwrites]

theorem makeResident_read_other {s : State} {f : AddressFields} {b : Nat}
    (h : ¬ WritesBack f s ∨ ∀ k : Offset, b ≠ (lineBase (s.line f.index).tag f.index).toNat + k.toNat) :
    Memory.read (makeResident s f).mem b = Memory.read s.mem b := by
  cases hlookup : lookup s f.index f.tag with
  | true => rw [makeResident_hit s hlookup]
  | false =>
    rw [makeResident_miss s hlookup]
    refine missLine_read_other s (h.imp_left fun hnot => ?_) _ _
    exact Bool.eq_false_iff.2 fun hwrites => hnot (writesBack_iff.2 ⟨hlookup, hwrites⟩)

/-- A byte whose tag or index is not the evicted line's lies outside the block written back. -/
theorem ne_lineBase_add {b : Addr} {t : Tag} {i : Index} (h : (addressFields b).tag ≠ t ∨ (addressFields b).index ≠ i)
    (k : Offset) : b.toNat ≠ (lineBase t i).toNat + k.toNat := by
  rw [toNat_eq_lineBase_add_offset b]
  exact lineBase_disjoint h _ _

/-! ### Clean lines agree with memory (20_memory.md R67) -/

/-- The line filled on a miss is a copy of memory as the write-back leaves it. -/
theorem missLine_data_eq_mem (s : State) (i : Index) (t : Tag) (base : Addr) (k : Offset) :
    blockByte ((missLine s i t base).line i).data k = Memory.read (missLine s i t base).mem (base.toNat + k.toNat) := by
  simp [missLine, fillLine, blockByte]

theorem clean_makeResident {s : State} (hclean : CleanAgreesWithMemory s) (a : Addr) :
    CleanAgreesWithMemory (makeResident s (addressFields a)) := by
  cases hlookup : lookup s (addressFields a).index (addressFields a).tag with
  | true => rwa [makeResident_hit s hlookup]
  | false =>
    intro i k hvalid hdirty
    by_cases hi : (addressFields a).index = i
    · rw [makeResident_miss s hlookup, ← hi, missLine_tag, missLine_data_eq_mem, lineBase_addressFields]
    · rw [makeResident_line_of_ne s hi] at hvalid hdirty ⊢
      rw [makeResident_read_other (.inr fun l => lineBase_disjoint (.inr (Ne.symm hi)) k l)]
      exact hclean i k hvalid hdirty

/-- A LDR keeps the resident lines, and the line of a STR is dirty. -/
theorem clean_executed {s : State} (hclean : CleanAgreesWithMemory s) (i : Instr) : CleanAgreesWithMemory (executed i s) := by
  have hresident : CleanAgreesWithMemory (makeResident s (Instr.fields i)) := clean_makeResident hclean _
  intro j k hvalid hdirty
  have hline : (executed i s).line j = (makeResident s (Instr.fields i)).line j := by
    cases i with
    | ldr r a => exact executed_ldr_line r a s j
    | str r a =>
      by_cases hj : (Instr.fields (.str r a)).index = j
      · subst hj
        rw [executed_dirty_of_str rfl] at hdirty
        cases hdirty
      · rw [executed_line_of_ne _ s hj, makeResident_line_of_ne s hj]
  rw [hline] at hvalid hdirty ⊢
  rw [executed_mem]
  exact hresident j k hvalid hdirty

/-! ### The view when a line is made resident -/

/-- Two addresses with the same tag and index are the same block: the address is the other's block base and its own offset. -/
theorem eq_blockBase_add_offset {a b : Addr} (htag : (addressFields b).tag = (addressFields a).tag)
    (hindex : (addressFields b).index = (addressFields a).index) :
    BitVec.ofNat 16 ((addressFields a).blockBase.toNat + (addressFields b).offset.toNat) = b := by
  rw [← (blockBase_eq_iff b a).2 ⟨htag, hindex⟩, blockBase_toNat_add_offset_toNat, BitVec.ofNat_toNat, BitVec.setWidth_eq]

theorem lookup_makeResident (s : State) (f : AddressFields) (t : Tag) :
    lookup (makeResident s f) f.index t = decide (f.tag = t) := by
  rw [Bool.eq_iff_iff, lookup_iff, makeResident_valid, makeResident_tag, decide_eq_true_iff]
  exact and_iff_right rfl

/-- The resident line shows the bytes of its block as the view did before. -/
theorem view_makeResident_of_same_block (s : State) {a b : Addr} (htag : (addressFields b).tag = (addressFields a).tag)
    (hindex : (addressFields b).index = (addressFields a).index) :
    (makeResident s (addressFields a)).view b = s.view b := by
  have hhit : lookup (makeResident s (addressFields a)) (addressFields b).index (addressFields b).tag = true := by
    rw [hindex, lookup_makeResident, htag, decide_eq_true rfl]
  rw [view_of_hit hhit, hindex, makeResident_data, eq_blockBase_add_offset htag hindex]

/-- A byte of another line keeps its line, and the write-back does not reach it. -/
theorem view_makeResident_of_other_line (s : State) {a b : Addr} (hindex : (addressFields a).index ≠ (addressFields b).index) :
    (makeResident s (addressFields a)).view b = s.view b :=
  view_congr (makeResident_line_of_ne s hindex) (makeResident_read_other (.inr (ne_lineBase_add (.inr hindex.symm))))

/-- A byte of another block of the same line is seen in memory after the access, for its own line is gone: the write-back put it
there if it was in a dirty line, and it stood there before if not. -/
theorem view_makeResident_of_other_block {s : State} (hclean : CleanAgreesWithMemory s) {a b : Addr}
    (htag : (addressFields a).tag ≠ (addressFields b).tag) (hindex : (addressFields b).index = (addressFields a).index) :
    (makeResident s (addressFields a)).view b = s.view b := by
  have hmiss : lookup (makeResident s (addressFields a)) (addressFields b).index (addressFields b).tag = false := by
    rw [hindex, lookup_makeResident, decide_eq_false htag]
  rw [view_of_miss hmiss]
  by_cases hevicts : WritesBack (addressFields a) s ∧ (s.line (addressFields a).index).tag = (addressFields b).tag
  · obtain ⟨hwrites, hold⟩ := hevicts
    have ⟨_, hvalid, _⟩ := hwrites
    have hhit : lookup s (addressFields b).index (addressFields b).tag = true := by
      rw [hindex, lookup_iff]
      exact ⟨hvalid, hold⟩
    rw [view_of_hit hhit, hindex, ← makeResident_read_evicted hwrites, hold, ← hindex, ← toNat_eq_lineBase_add_offset]
  · rw [makeResident_read_other ((not_and_or.1 hevicts).imp_right fun hold => ne_lineBase_add (.inl (Ne.symm hold)))]
    by_contra hstale
    obtain ⟨hvalid, hdirty, hold⟩ := dirty_of_view_ne hclean (Ne.symm hstale)
    rw [hindex] at hvalid hdirty hold
    have hmissed : lookup s (addressFields a).index (addressFields a).tag = false :=
      Bool.eq_false_iff.2 fun h => htag (((lookup_iff ..).1 h).2.symm.trans hold)
    exact hevicts ⟨⟨hmissed, hvalid, hdirty⟩, hold⟩

/-- Making a line resident changes no byte of the view, whatever it evicts (20_memory.md R65). -/
theorem view_makeResident {s : State} (hclean : CleanAgreesWithMemory s) (a b : Addr) :
    (makeResident s (addressFields a)).view b = s.view b := by
  by_cases hindex : (addressFields b).index = (addressFields a).index
  · by_cases htag : (addressFields b).tag = (addressFields a).tag
    · exact view_makeResident_of_same_block s htag hindex
    · exact view_makeResident_of_other_block hclean (Ne.symm htag) hindex
  · exact view_makeResident_of_other_line s (Ne.symm hindex)

/-! ### The view after an executed record -/

/-- A LDR leaves lines and memory as making its line resident left them. -/
theorem view_executed_ldr (r a : Nat) (s : State) (b : Addr) :
    (executed (.ldr r a) s).view b = (makeResident s (Instr.fields (.ldr r a))).view b :=
  view_congr (executed_ldr_line r a s _) (by rw [executed_mem])

/-- An address in a block is the address of that block's offset. -/
theorem eq_iff_same_block_and_offset {a b : Addr} :
    b = a ↔ ((addressFields b).tag = (addressFields a).tag ∧ (addressFields b).index = (addressFields a).index)
      ∧ (addressFields b).offset = (addressFields a).offset := by
  refine ⟨fun h => by simp [h], fun ⟨⟨htag, hindex⟩, hoffset⟩ => ?_⟩
  rw [← addressOf_addressFields a, ← addressOf_addressFields b, htag, hindex, hoffset]

/-- The second byte of an access at an offset other than 7 is the next offset of the same block. -/
theorem addressFields_succ {a : Nat} (ha : a ≤ 0xFFFF) (ho : (addressFields (addrOperand a)).offset ≠ 7) :
    (addressFields (addrOperand (a + 1))).tag = (addressFields (addrOperand a)).tag
      ∧ (addressFields (addrOperand (a + 1))).index = (addressFields (addrOperand a)).index
      ∧ (addressFields (addrOperand (a + 1))).offset = (addressFields (addrOperand a)).offset + 1 := by
  have hoffset : a % 8 ≠ 7 := fun h => ho ((offset_addrOperand_eq_seven a).2 h)
  have hnext : (addrOperand (a + 1)).toNat = a + 1 := addrOperand_toNat (by omega)
  refine ⟨BitVec.eq_of_toNat_eq ?_, BitVec.eq_of_toNat_eq ?_, BitVec.eq_of_toNat_eq ?_⟩
  · rw [addressFields_tag_toNat, addressFields_tag_toNat, hnext, addrOperand_toNat ha]; omega
  · rw [addressFields_index_toNat, addressFields_index_toNat, hnext, addrOperand_toNat ha]; omega
  · rw [offset_succ_toNat ho, addressFields_offset_toNat, addressFields_offset_toNat, hnext, addrOperand_toNat ha]; omega

section
variable (i : Instr) (s : State) {b : Addr}

/-- After a record its line shows the bytes of its block. -/
theorem view_executed_of_same_block (htag : (addressFields b).tag = (Instr.fields i).tag)
    (hindex : (addressFields b).index = (Instr.fields i).index) :
    (executed i s).view b = blockByte ((executed i s).line (Instr.fields i).index).data (addressFields b).offset := by
  have hhit : lookup (executed i s) (addressFields b).index (addressFields b).tag = true := by
    rw [hindex, htag, lookup_iff]
    exact ⟨executed_valid i s, executed_tag i s⟩
  rw [view_of_hit hhit, hindex]

/-- Outside its block a record changes no more of the view than making its line resident did. -/
theorem view_executed_of_other_block
    (h : ¬ ((addressFields b).tag = (Instr.fields i).tag ∧ (addressFields b).index = (Instr.fields i).index)) :
    (executed i s).view b = (makeResident s (Instr.fields i)).view b := by
  by_cases hindex : (Instr.fields i).index = (addressFields b).index
  · have htag : (Instr.fields i).tag ≠ (addressFields b).tag := fun htag => h ⟨htag.symm, hindex.symm⟩
    have hafter : lookup (executed i s) (addressFields b).index (addressFields b).tag = false := by
      rw [← hindex, Bool.eq_false_iff, ne_eq, lookup_iff, executed_tag]
      exact fun hhit => htag hhit.2
    have hresident : lookup (makeResident s (Instr.fields i)) (addressFields b).index (addressFields b).tag = false := by
      rw [← hindex, lookup_makeResident, decide_eq_false htag]
    rw [view_of_miss hafter, view_of_miss hresident, executed_mem]
  · exact view_congr ((executed_line_of_ne i s hindex).trans (makeResident_line_of_ne s hindex).symm) (by rw [executed_mem])

end

/-- The bytes of a STR's line: the two stored, and the others as its line was made resident. -/
theorem blockByte_executed_str (r a : Nat) (s : State) (k : Offset) :
    blockByte ((executed (.str r a) s).line (Instr.fields (.str r a)).index).data k =
      if k = (Instr.fields (.str r a)).offset + 1 then highByte (s.readReg (regOperand r))
      else if k = (Instr.fields (.str r a)).offset then lowByte (s.readReg (regOperand r))
      else blockByte ((makeResident s (Instr.fields (.str r a))).line (Instr.fields (.str r a)).index).data k := by
  rw [executed_str_line, blockByte_storePair]

theorem offset_ne_succ (off : Offset) : off ≠ off + 1 := by bv_omega

theorem view_executed_str_low {r a : Nat} (s : State) :
    (executed (.str r a) s).view (addrOperand a) = lowByte (s.readReg (regOperand r)) := by
  rw [view_executed_of_same_block (b := addrOperand a) (.str r a) s rfl rfl, blockByte_executed_str]
  exact (if_neg (offset_ne_succ _)).trans (if_pos rfl)

theorem view_executed_str_high {r a : Nat} (ha : a ≤ 0xFFFF) (ho : (addressFields (addrOperand a)).offset ≠ 7) (s : State) :
    (executed (.str r a) s).view (addrOperand (a + 1)) = highByte (s.readReg (regOperand r)) := by
  obtain ⟨htag, hindex, hoffset⟩ := addressFields_succ ha ho
  rw [view_executed_of_same_block (.str r a) s htag hindex, blockByte_executed_str, hoffset]
  exact if_pos rfl

/-- A byte that is neither of a STR's two keeps the view that making the line resident gave it. -/
theorem view_executed_str_other {r a : Nat} (ha : a ≤ 0xFFFF) (ho : (addressFields (addrOperand a)).offset ≠ 7) (s : State)
    {b : Addr} (hlow : b ≠ addrOperand a) (hhigh : b ≠ addrOperand (a + 1)) :
    (executed (.str r a) s).view b = (makeResident s (Instr.fields (.str r a))).view b := by
  by_cases hblock : (addressFields b).tag = (Instr.fields (.str r a)).tag
      ∧ (addressFields b).index = (Instr.fields (.str r a)).index
  · obtain ⟨htag, hindex⟩ := hblock
    obtain ⟨hsuccTag, hsuccIndex, hsuccOffset⟩ := addressFields_succ ha ho
    have hnotLow : (addressFields b).offset ≠ (Instr.fields (.str r a)).offset := fun h =>
      hlow (eq_iff_same_block_and_offset.2 ⟨⟨htag, hindex⟩, h⟩)
    have hnotHigh : (addressFields b).offset ≠ (Instr.fields (.str r a)).offset + 1 := fun h =>
      hhigh (eq_iff_same_block_and_offset.2 ⟨⟨htag.trans hsuccTag.symm, hindex.trans hsuccIndex.symm⟩, h.trans hsuccOffset.symm⟩)
    have hhit : lookup (makeResident s (Instr.fields (.str r a))) (addressFields b).index (addressFields b).tag = true := by
      rw [hindex, lookup_makeResident, htag, decide_eq_true rfl]
    rw [view_executed_of_same_block _ s htag hindex, blockByte_executed_str, if_neg hnotHigh, if_neg hnotLow,
      view_of_hit hhit, hindex]
  · exact view_executed_of_other_block _ s hblock

/-- Everything a record does to the view: a STR writes its two bytes, and nothing else changes (20_memory.md R65). -/
theorem view_executed {i : Instr} {s : State} (hclean : CleanAgreesWithMemory s) (hf : recordFault i = none) (b : Addr) :
    (executed i s).view b =
      if i.op = .str ∧ b = addrOperand i.addr then lowByte (s.readReg (regOperand i.reg))
      else if i.op = .str ∧ b = addrOperand (i.addr + 1) then highByte (s.readReg (regOperand i.reg))
      else s.view b := by
  obtain ⟨-, ha, ho⟩ := recordFault_eq_none.1 hf
  have hkept : (makeResident s (Instr.fields i)).view b = s.view b := view_makeResident hclean _ b
  cases i with
  | ldr r a => simpa [Instr.op] using (view_executed_ldr r a s b).trans hkept
  | str r a =>
    have hop : (Instr.str r a).op = .str := rfl
    simp only [hop, true_and]
    split
    next hlow => rw [hlow]; exact view_executed_str_low s
    next hlow =>
      split
      next hhigh => rw [hhigh]; exact view_executed_str_high ha ho s
      next hhigh => exact (view_executed_str_other ha ho s hlow hhigh).trans hkept

/-- Settles O23. -/
theorem viewChangesOnlyWhereAStoreWrites : Obligations.ViewChangesOnlyWhereAStoreWrites := by
  unfold Obligations.ViewChangesOnlyWhereAStoreWrites
  intro i s hclean hruns
  obtain ⟨-, hfault⟩ := runsRecord_iff.1 hruns
  exact ⟨executed i s, exec_of_runsRecord hruns, view_executed hclean hfault⟩

end Sys2Proof.Machine
end

section
/-! PROOFS. Lists of records: the block against the sequential semantics (20_memory.md R66), stores that no order of records loses
(70_reset_and_hazards.md section 3), and when an access hits (41_cache_controller.md R135). -/

namespace Sys2Proof.Machine

/-! ### A list of records that all execute -/

/-- The state after records that are executed in order; `runRecords_eq_executedAll` ties it to the model's run. -/
def executedAll : List Instr → State → State
  | [], s => s
  | i :: is, s => executedAll is (executed i s)

theorem accepting_executed {s : State} (ha : s.accepting = true) (i : Instr) : (executed i s).accepting = true := by
  rw [accepting_iff] at ha ⊢
  rwa [executed_phase, executed_fsm]

/-- Accepted records without a fault condition run to the state after them all. -/
theorem runRecords_eq_executedAll {is : List Instr} {s : State} (ha : s.accepting = true)
    (hf : ∀ i ∈ is, recordFault i = none) : runRecords is s = .next (executedAll is s) := by
  induction is generalizing s with
  | nil => rfl
  | cons i is ih =>
    rw [runRecords, exec_of_ok ha (hf i (List.mem_cons_self ..))]
    exact ih (accepting_executed ha i) fun j hj => hf j (List.mem_cons_of_mem _ hj)

theorem executedAll_append (is js : List Instr) (s : State) :
    executedAll (is ++ js) s = executedAll js (executedAll is s) := by
  induction is generalizing s with
  | nil => rfl
  | cons i is ih => exact ih (executed i s)

/-- What each record of a list keeps holds after the list. -/
theorem executedAll_keeps (P : State → Prop) {is : List Instr} (hkeeps : ∀ i ∈ is, ∀ s, P s → P (executed i s)) {s : State}
    (hs : P s) : P (executedAll is s) := by
  induction is generalizing s with
  | nil => exact hs
  | cons i is ih =>
    exact ih (fun j hj => hkeeps j (List.mem_cons_of_mem _ hj)) (hkeeps i (List.mem_cons_self ..) s hs)

theorem accepting_executedAll {s : State} (ha : s.accepting = true) (is : List Instr) :
    (executedAll is s).accepting = true :=
  executedAll_keeps (fun t => t.accepting = true) (fun i _ _ h => accepting_executed h i) ha

theorem clean_executedAll {s : State} (hclean : CleanAgreesWithMemory s) (is : List Instr) :
    CleanAgreesWithMemory (executedAll is s) :=
  executedAll_keeps CleanAgreesWithMemory (fun i _ _ h => clean_executed h i) hclean

/-! ### The value a LDR loads -/

/-- Through its resident line a LDR reads the coherent bytes of its two addresses, low byte first. -/
theorem loadPair_resident {i : Instr} (hf : recordFault i = none) (s : State) :
    loadPair ((makeResident s (Instr.fields i)).line (Instr.fields i).index).data (Instr.fields i).offset =
      combineBytes (s.view (addrOperand i.addr)) (s.view (addrOperand (i.addr + 1))) := by
  obtain ⟨-, ha, ho⟩ := recordFault_eq_none.1 hf
  exact congrArg₂ combineBytes (resident_byte ha s) (resident_succ_byte ha ho s)

theorem executed_ldr_x_eq_view {r a : Nat} (hf : recordFault (.ldr r a) = none) (s : State) :
    (executed (.ldr r a) s).x =
      s.x.set (regOperand r).toNat (combineBytes (s.view (addrOperand a)) (s.view (addrOperand (a + 1)))) (regOperand r).isLt := by
  rw [executed_ldr_x, loadPair_resident hf]
  rfl

theorem readReg_executed_ldr {r a : Nat} (hf : recordFault (.ldr r a) = none) (s : State) (q : RegIndex) :
    (executed (.ldr r a) s).readReg q =
      if q = regOperand r then combineBytes (s.view (addrOperand a)) (s.view (addrOperand (a + 1))) else s.readReg q := by
  simp [State.readReg, executed_ldr_x_eq_view hf, Vector.getElem_set, BitVec.toNat_inj, eq_comm]

/-! ### The sequential semantics (R66) -/

theorem addr_le_of_recordFault_none {i : Instr} (hf : recordFault i = none) : i.addr ≤ 0xFFFF := by
  obtain ⟨-, ha, -⟩ := recordFault_eq_none.1 hf
  exact ha

/-- The second byte of an access without a fault condition lies in the address space. -/
theorem succ_le_of_recordFault_none {i : Instr} (hf : recordFault i = none) : i.addr + 1 ≤ 0xFFFF := by
  obtain ⟨-, ha, ho⟩ := recordFault_eq_none.1 hf
  have hoffset : i.addr % 8 ≠ 7 := fun h => ho ((offset_addrOperand_eq_seven i.addr).2 h)
  omega

/-- The view at an address given as a number is the flat memory's byte. -/
theorem Represents.view_eq {s : State} {q : FlatMachine} (h : Represents s q) {a : Nat} (ha : a ≤ 0xFFFF) :
    s.view (addrOperand a) = Memory.read q.mem a := by
  obtain ⟨-, hview⟩ := h
  rw [hview, addrOperand_toNat ha]

theorem eq_addrOperand_iff {b : Addr} {a : Nat} (ha : a ≤ 0xFFFF) : b = addrOperand a ↔ b.toNat = a := by
  rw [← BitVec.toNat_inj, addrOperand_toNat ha]

/-- LDR on the block and on flat memory: the loaded bytes agree, and neither view changes. -/
theorem represents_executed_ldr {r a : Nat} {s : State} {q : FlatMachine} (hclean : CleanAgreesWithMemory s)
    (hf : recordFault (.ldr r a) = none) (h : Represents s q) : Represents (executed (.ldr r a) s) (q.exec (.ldr r a)) := by
  have ha : a ≤ 0xFFFF := addr_le_of_recordFault_none hf
  have hsucc : a + 1 ≤ 0xFFFF := succ_le_of_recordFault_none hf
  have hload : q.load a = combineBytes (s.view (addrOperand a)) (s.view (addrOperand (a + 1))) := by
    rw [FlatMachine.load, h.view_eq ha, h.view_eq hsucc]
  obtain ⟨hx, hview⟩ := h
  simp only [FlatMachine.exec, hf, Option.isSome_none, Bool.false_eq_true, if_false, hload]
  refine ⟨?_, fun b => ?_⟩
  · rw [executed_ldr_x_eq_view hf, hx]
  · rw [view_executed hclean hf, ← hview]
    simp [Instr.op]

/-- STR on the block and on flat memory: the same two bytes change in both views. -/
theorem represents_executed_str {r a : Nat} {s : State} {q : FlatMachine} (hclean : CleanAgreesWithMemory s)
    (hf : recordFault (.str r a) = none) (h : Represents s q) : Represents (executed (.str r a) s) (q.exec (.str r a)) := by
  have ha : a ≤ 0xFFFF := addr_le_of_recordFault_none hf
  have hsucc : a + 1 ≤ 0xFFFF := succ_le_of_recordFault_none hf
  obtain ⟨hx, hview⟩ := h
  have hreg : q.x[(regOperand r).toNat]'(regOperand r).isLt = s.readReg (regOperand r) := by rw [State.readReg, hx]
  simp only [FlatMachine.exec, hf, Option.isSome_none, Bool.false_eq_true, if_false, hreg]
  refine ⟨(executed_str_x r a s).trans hx, fun b => ?_⟩
  simp only [view_executed hclean hf, Memory.read_write, ← hview, Instr.op, Instr.addr, Instr.reg, true_and,
    eq_addrOperand_iff ha, eq_addrOperand_iff hsucc]
  by_cases hlow : b.toNat = a
  · have hhigh : b.toNat ≠ a + 1 := by omega
    rw [if_pos hlow, if_neg hhigh, if_pos hlow]
  · rw [if_neg hlow, if_neg hlow]

theorem represents_executed {i : Instr} {s : State} {q : FlatMachine} (hclean : CleanAgreesWithMemory s)
    (hf : recordFault i = none) (h : Represents s q) : Represents (executed i s) (q.exec i) := by
  cases i with
  | ldr r a => exact represents_executed_ldr hclean hf h
  | str r a => exact represents_executed_str hclean hf h

/-- Settles O25, by induction on the records: each keeps the relation and the agreement of clean lines with memory. -/
theorem runsAreSequentiallyConsistent : Obligations.RunsAreSequentiallyConsistent := by
  unfold Obligations.RunsAreSequentiallyConsistent
  intro records s q hclean ha hf h
  refine ⟨executedAll records s, runRecords_eq_executedAll ha hf, ?_, clean_executedAll hclean records⟩
  clear ha
  induction records generalizing s q with
  | nil => exact h
  | cons i is ih =>
    exact ih _ _ (clean_executed hclean i) (fun j hj => hf j (List.mem_cons_of_mem _ hj))
      (represents_executed hclean (hf i (List.mem_cons_self ..)) h)

/-! ### No order of records loses a store -/

/-- A byte that a record does not store to keeps its view. -/
theorem view_executed_of_not_storesTo {i : Instr} {s : State} {a : Nat} (hclean : CleanAgreesWithMemory s)
    (hf : recordFault i = none) (ha : a ≤ 0xFFFF) (h : ¬ StoresTo i a) :
    (executed i s).view (addrOperand a) = s.view (addrOperand a) := by
  have hi := addr_le_of_recordFault_none hf
  have hsucc := succ_le_of_recordFault_none hf
  have hlow : ¬ (i.op = .str ∧ addrOperand a = addrOperand i.addr) := fun ⟨hop, heq⟩ =>
    h ⟨hop, .inl (by rwa [eq_addrOperand_iff hi, addrOperand_toNat ha] at heq)⟩
  have hhigh : ¬ (i.op = .str ∧ addrOperand a = addrOperand (i.addr + 1)) := fun ⟨hop, heq⟩ =>
    h ⟨hop, .inr (by rwa [eq_addrOperand_iff hsucc, addrOperand_toNat ha] at heq)⟩
  rw [view_executed hclean hf, if_neg hlow, if_neg hhigh]

theorem view_executedAll_of_not_storesTo {is : List Instr} {s : State} {a : Nat} (hclean : CleanAgreesWithMemory s)
    (hf : ∀ i ∈ is, recordFault i = none) (ha : a ≤ 0xFFFF) (h : ∀ i ∈ is, ¬ StoresTo i a) :
    (executedAll is s).view (addrOperand a) = s.view (addrOperand a) := by
  have hkept := executedAll_keeps
    (fun t => CleanAgreesWithMemory t ∧ t.view (addrOperand a) = s.view (addrOperand a))
    (fun i hi t ⟨hc, hv⟩ => ⟨clean_executed hc i, (view_executed_of_not_storesTo hc (hf i hi) ha (h i hi)).trans hv⟩)
    ⟨hclean, rfl⟩
  exact hkept.2

/-- Only the register is another in the fault conditions of two records with one address. -/
theorem recordFault_ldr_of_str {r q a : Nat} (hf : recordFault (.str r a) = none) (hq : q ≤ 15) :
    recordFault (.ldr q a) = none := by
  obtain ⟨-, ha, ho⟩ := recordFault_eq_none.1 hf
  exact recordFault_eq_none.2 ⟨hq, ha, ho⟩

/-- After a STR, and records that spare its bytes, the view still holds the two bytes stored. -/
theorem view_after_store {r a : Nat} {between : List Instr} {s : State} (hclean : CleanAgreesWithMemory s)
    (hf : recordFault (.str r a) = none) (hbetween : ∀ i ∈ between, recordFault i = none)
    (hlow : ∀ i ∈ between, ¬ StoresTo i a) (hhigh : ∀ i ∈ between, ¬ StoresTo i (a + 1)) :
    (executedAll (.str r a :: between) s).view (addrOperand a) = lowByte (s.readReg (regOperand r))
      ∧ (executedAll (.str r a :: between) s).view (addrOperand (a + 1)) = highByte (s.readReg (regOperand r)) := by
  obtain ⟨-, ha, ho⟩ := recordFault_eq_none.1 hf
  have hsucc := succ_le_of_recordFault_none hf
  have hstored := clean_executed hclean (.str r a)
  exact ⟨(view_executedAll_of_not_storesTo hstored hbetween ha hlow).trans (view_executed_str_low s),
    (view_executedAll_of_not_storesTo hstored hbetween hsucc hhigh).trans (view_executed_str_high ha ho s)⟩

/-- Settles O24: the view holds the two stored bytes until the LDR reads them. -/
theorem noOrderOfRecordsLosesAStore : Obligations.NoOrderOfRecordsLosesAStore := by
  unfold Obligations.NoOrderOfRecordsLosesAStore
  intro r q a between s hclean hstore hbetween hq
  obtain ⟨haccepting, hfstore⟩ := runsRecord_iff.1 hstore
  have hfbetween : ∀ i ∈ between, recordFault i = none := fun i hi => (runsRecord_iff.1 (hbetween i hi).1).2
  have hfload : recordFault (.ldr q a) = none := recordFault_ldr_of_str hfstore hq
  have hall : ∀ i ∈ .str r a :: between ++ [.ldr q a], recordFault i = none := by
    intro i hi
    simp only [List.mem_append, List.mem_cons, List.not_mem_nil, or_false] at hi
    obtain (rfl | hi) | rfl := hi
    · exact hfstore
    · exact hfbetween i hi
    · exact hfload
  obtain ⟨hlow, hhigh⟩ := view_after_store hclean hfstore hfbetween (fun i hi => (hbetween i hi).2.1)
    fun i hi => (hbetween i hi).2.2
  refine ⟨_, runRecords_eq_executedAll haccepting hall, ?_⟩
  rw [executedAll_append]
  calc (executed (.ldr q a) (executedAll (.str r a :: between) s)).readReg (regOperand q)
      = combineBytes ((executedAll (.str r a :: between) s).view (addrOperand a))
          ((executedAll (.str r a :: between) s).view (addrOperand (a + 1))) :=
        (readReg_executed_ldr hfload _ _).trans (if_pos rfl)
    _ = combineBytes (lowByte (s.readReg (regOperand r))) (highByte (s.readReg (regOperand r))) := by rw [hlow, hhigh]
    _ = s.readReg (regOperand r) := combineBytes_low_high _

/-! ### When an access hits (41_cache_controller.md R135) -/

theorem recordHit_eq_true_iff {i : Instr} {s : State} :
    recordHit i s = true ↔ (s.line (Instr.fields i).index).valid = true ∧ (s.line (Instr.fields i).index).tag = (Instr.fields i).tag :=
  lookup_iff ..

/-- Settles O26: an invalid line misses whatever tag it holds. -/
theorem firstAccessToAnInvalidLineMisses : Obligations.FirstAccessToAnInvalidLineMisses := by
  unfold Obligations.FirstAccessToAnInvalidLineMisses
  intro i s hruns hinvalid
  refine ⟨executed i s, recordTrace i s, exec_of_runsRecord hruns, ?_, eventsOfRecord_executed i s⟩
  refine Bool.eq_false_iff.2 fun hhit => ?_
  obtain ⟨hvalid, -⟩ := recordHit_eq_true_iff.1 hhit
  exact Bool.false_ne_true (hinvalid.symm.trans hvalid)

/-- A line is valid and holds a tag. -/
def HoldsTag (s : State) (j : Index) (t : Tag) : Prop := (s.line j).valid = true ∧ (s.line j).tag = t

theorem holdsTag_executed (i : Instr) (s : State) : HoldsTag (executed i s) (Instr.fields i).index (Instr.fields i).tag :=
  ⟨executed_valid i s, executed_tag i s⟩

/-- A record of no other tag at the line's index leaves the tag there. -/
theorem holdsTag_executed_of_held {i : Instr} {s : State} {j : Index} {t : Tag} (h : HoldsTag s j t)
    (hsame : (Instr.fields i).index = j → (Instr.fields i).tag = t) : HoldsTag (executed i s) j t := by
  by_cases hj : (Instr.fields i).index = j
  · have hfilled := holdsTag_executed i s
    rwa [hj, hsame hj] at hfilled
  · unfold HoldsTag
    rwa [executed_line_of_ne i s hj]

/-- Settles O27: the first record's line holds its tag through the records between. -/
theorem laterAccessToTheSameBlockHits : Obligations.LaterAccessToTheSameBlockHits := by
  unfold Obligations.LaterAccessToTheSameBlockHits
  intro first later between s hfirst hlater hbetween hblock
  obtain ⟨haccepting, hffirst⟩ := runsRecord_iff.1 hfirst
  obtain ⟨-, hflater⟩ := runsRecord_iff.1 hlater
  have hall : ∀ i ∈ first :: between, recordFault i = none :=
    List.forall_mem_cons.2 ⟨hffirst, fun i hi => (runsRecord_iff.1 (hbetween i hi).1).2⟩
  have hheld : HoldsTag (executedAll (first :: between) s) (Instr.fields first).index (Instr.fields first).tag :=
    executedAll_keeps (fun t => HoldsTag t (Instr.fields first).index (Instr.fields first).tag)
      (fun i hi _ h => holdsTag_executed_of_held h (hbetween i hi).2) (holdsTag_executed first s)
  obtain ⟨htag, hindex⟩ := (blockBase_eq_iff _ _).1 hblock
  refine ⟨_, _, recordTrace later _, runRecords_eq_executedAll haccepting hall,
    exec_of_ok (accepting_executedAll haccepting _) hflater, ?_, eventsOfRecord_executed later _⟩
  refine recordHit_eq_true_iff.2 ?_
  rw [Instr.fields, addrOperand, htag, hindex]
  exact hheld

end Sys2Proof.Machine
end

section
/-! PROOFS. The whole effect of LDR and STR (42_load_store.md R161, R162): the register, the line, the trace and the frame. -/

namespace Sys2Proof.Machine

/-! ### The frame of an executed record -/

/-- What an executed record leaves unchanged, and what its write-back writes. -/
theorem recordFrame_executed (i : Instr) (s : State) : RecordFrame (Instr.fields i) s (executed i s) := by
  have hlines : ∀ j, j ≠ (Instr.fields i).index → (executed i s).line j = s.line j :=
    fun j hj => executed_line_of_ne i s (Ne.symm hj)
  unfold RecordFrame
  rw [executed_mem]
  exact ⟨hlines, makeResident_read_evicted, fun b => makeResident_read_other, executed_rc i s, executed_phase i s,
    executed_fault i s, executed_fsm i s, executed_verbose i s, executed_host i s⟩

/-! ### The line of an executed record -/

/-- Byte k of the resident line is the coherent byte of the block (42_load_store.md R160). -/
theorem resident_data_eq_view (i : Instr) (s : State) (k : Offset) :
    blockByte ((makeResident s (Instr.fields i)).line (Instr.fields i).index).data k =
      s.view ((Instr.fields i).blockBase + k.setWidth 16) :=
  (makeResident_data s _ k).trans (congrArg s.view (blockBase_add _ k))

theorem executed_ldr_data (r a : Nat) (s : State) (k : Offset) :
    blockByte ((executed (.ldr r a) s).line (Instr.fields (.ldr r a)).index).data k =
      s.view ((Instr.fields (.ldr r a)).blockBase + k.setWidth 16) := by
  rw [executed_ldr_line, resident_data_eq_view]

/-- The bytes of a STR's line in the spec's order, low byte first; the two offsets differ, so that no byte is both. -/
theorem executed_str_data (r a : Nat) (s : State) (k : Offset) :
    blockByte ((executed (.str r a) s).line (Instr.fields (.str r a)).index).data k =
      if k = (Instr.fields (.str r a)).offset then (s.readReg (regOperand r)).extractLsb 7 0
      else if k = (Instr.fields (.str r a)).offset + 1 then (s.readReg (regOperand r)).extractLsb 15 8
      else s.view ((Instr.fields (.str r a)).blockBase + k.setWidth 16) := by
  rw [blockByte_executed_str, resident_data_eq_view, lowByte_eq_extractLsb, highByte_eq_extractLsb]
  by_cases hlow : k = (Instr.fields (.str r a)).offset
  · have hhigh : k ≠ (Instr.fields (.str r a)).offset + 1 := hlow ▸ offset_ne_succ _
    rw [if_neg hhigh, if_pos hlow, if_pos hlow]
  · rw [if_neg hlow, if_neg hlow]

/-- A LDR keeps the dirty bit on a hit and clears it on a miss. -/
theorem executed_dirty_of_ldr {i : Instr} (h : i.op = .ldr) (s : State) :
    ((executed i s).line (Instr.fields i).index).dirty = (recordHit i s && (s.line (Instr.fields i).index).dirty) := by
  simp [executed_dirty, h]

theorem executed_str_readReg (r a : Nat) (s : State) (q : RegIndex) : (executed (.str r a) s).readReg q = s.readReg q := by
  simp only [State.readReg, executed_str_x]

/-! ### The trace of an executed record, in the record's own terms -/

theorem recordTrace_ldr {r a : Nat} (hf : recordFault (.ldr r a) = none) (s : State) :
    recordTrace (.ldr r a) s =
      { op := .ldr, reg := regOperand r, addr := addrOperand a, tag := (Instr.fields (.ldr r a)).tag
        index := (Instr.fields (.ldr r a)).index, offset := (Instr.fields (.ldr r a)).offset
        hit := recordHit (.ldr r a) s
        value := combineBytes (s.view (addrOperand a)) (s.view (addrOperand (a + 1))) } := by
  have hvalue := loadPair_resident hf s
  simp only [recordTrace, traceOf, accessLine, hvalue]
  rfl

theorem recordTrace_str (r a : Nat) (s : State) :
    recordTrace (.str r a) s =
      { op := .str, reg := regOperand r, addr := addrOperand a, tag := (Instr.fields (.str r a)).tag
        index := (Instr.fields (.str r a)).index, offset := (Instr.fields (.str r a)).offset
        hit := recordHit (.str r a) s, value := s.readReg (regOperand r) } := by
  simp only [recordTrace, traceOf, accessLine, makeResident_readReg]
  rfl

/-! ### The obligations -/

/-- Settles O18: the record is executed, and each clause is a fact about `executed`. -/
theorem ldrResult : Obligations.LdrResult := by
  unfold Obligations.LdrResult
  intro r a s hruns
  obtain ⟨-, hf⟩ := runsRecord_iff.1 hruns
  have hevents := eventsOfRecord_executed (.ldr r a) s
  rw [recordTrace_ldr hf] at hevents
  refine ⟨executed (.ldr r a) s, _, exec_of_runsRecord hruns, rfl, readReg_executed_ldr hf s, ?_⟩
  have hfields : addressFields (BitVec.ofNat 16 a) = Instr.fields (.ldr r a) := rfl
  simp only [hfields]
  exact ⟨executed_valid _ s, executed_tag _ s, executed_dirty_of_ldr rfl s, executed_ldr_data r a s, hevents,
    recordFrame_executed _ s⟩

/-- Settles O19: the record is executed, and each clause is a fact about `executed`. -/
theorem strResult : Obligations.StrResult := by
  unfold Obligations.StrResult
  intro r a s hruns
  have hevents := eventsOfRecord_executed (.str r a) s
  rw [recordTrace_str] at hevents
  refine ⟨executed (.str r a) s, _, exec_of_runsRecord hruns, rfl, executed_str_readReg r a s, ?_⟩
  have hfields : addressFields (BitVec.ofNat 16 a) = Instr.fields (.str r a) := rfl
  simp only [hfields]
  exact ⟨executed_valid _ s, executed_tag _ s, executed_dirty_of_str rfl s, executed_str_data r a s, hevents,
    recordFrame_executed _ s⟩

end Sys2Proof.Machine
end

section
/-! PROOFS. The invariant of the block: it holds after construction and every step keeps it (10_state.md section 3, 20_memory.md
section 6, 44_trace_snapshot.md R227), and the counts of events it gives for a run that ends well. -/

namespace Sys2Proof.Machine

/-! ### The fault record and the phase (10_state.md R32) -/

theorem faultRecordOfPhase_of_none {s : State} (hfault : s.fault = none) (hphase : s.phase ≠ .faulted) :
    FaultRecordOfPhase s := by
  simp only [FaultRecordOfPhase, hfault]
  exact hphase

theorem fault_eq_none_of_phase {s : State} (h : FaultRecordOfPhase s) (hphase : s.phase ≠ .faulted) : s.fault = none := by
  unfold FaultRecordOfPhase at h
  cases hfault : s.fault with
  | none => rfl
  | some f =>
    simp only [hfault] at h
    exact absurd h.1 hphase

/-- A fault record that stays as it was between two phases other than Faulted. -/
theorem faultRecordOfPhase_of_kept {s t : State} (h : FaultRecordOfPhase s) (hs : s.phase ≠ .faulted)
    (hkept : t.fault = s.fault) (ht : t.phase ≠ .faulted) : FaultRecordOfPhase t :=
  faultRecordOfPhase_of_none (hkept.trans (fault_eq_none_of_phase h hs)) ht

theorem faultRecordOfPhase_raise {s : State} (h : s.fault = none) (code : FaultCode) (info : FaultInfo) :
    FaultRecordOfPhase (s.raise code info) := by
  simp [FaultRecordOfPhase, h]

/-! ### The order of events by the phase (44_trace_snapshot.md R227) -/

section
variable {s : State}

theorem outputOrdered_launch (h : s.phase = .launch) : OutputOrdered s ↔ s.out = [] := by
  simp only [OutputOrdered, h]

theorem outputOrdered_running (h : s.phase = .running) :
    OutputOrdered s ↔ s.out.map Event.kind = runEvents s.verbose s.rc := by
  simp only [OutputOrdered, h]

theorem outputOrdered_done (h : s.phase = .done) :
    OutputOrdered s ↔ s.out.map Event.kind = runEvents s.verbose s.rc ++ [.snapshot, .ended] := by
  simp only [OutputOrdered, h]

theorem outputOrdered_faulted (h : s.phase = .faulted) :
    OutputOrdered s ↔ s.out.map Event.kind = runEvents s.verbose s.rc ++ [.fault]
      ∨ (s.rc = 0 ∧ s.out.map Event.kind = [.fault]) := by
  simp only [OutputOrdered, h]

theorem outputOrdered_aborted (h : s.phase = .aborted) : OutputOrdered s ↔ s.out = [] := by
  simp only [OutputOrdered, h]

end

theorem runEvents_zero (v : Bool) : runEvents v 0 = if v then [.snapshot] else [] := by simp [runEvents]

/-- The kinds of the events that VERBOSE adds. -/
theorem map_kind_verbose (v : Bool) (q : Snapshot) :
    (if v then [Event.snapshot q] else []).map Event.kind = if v then [.snapshot] else [] := by cases v <;> rfl

/-- The events of an executed record are those of one record more. -/
theorem map_kind_executed_out (i : Instr) (s : State) (h : s.out.map Event.kind = runEvents s.verbose s.rc) :
    (executed i s).out.map Event.kind = runEvents s.verbose (s.rc + 1) := by
  rw [executed_out, List.map_append, h, runEvents_succ, List.map_cons, map_kind_verbose]
  cases s.verbose <;> rfl

/-! ### Lines that do not change -/

theorem launch_lines (s : State) : (launch s).lines = s.lines := by
  obtain ⟨-, hs⟩ | ⟨base, -, -, hs⟩ | ⟨-, -, hs⟩ := launch_cases s <;> simp [hs]

theorem launch_line (s : State) (i : Index) : (launch s).line i = s.line i := State.line_eq_of_lines (launch_lines s) i

theorem dirtyIsValid_of_lines {s t : State} (h : DirtyIsValid s) (hlines : t.lines = s.lines) : DirtyIsValid t := by
  intro i
  rw [State.line_eq_of_lines hlines]
  exact h i

theorem clean_of_invalid {s : State} (h : ∀ i, (s.line i).valid = false) : CleanAgreesWithMemory s := by
  intro i k hvalid
  rw [h i] at hvalid
  cases hvalid

theorem dirtyIsValid_executed {s : State} (h : DirtyIsValid s) (i : Instr) : DirtyIsValid (executed i s) := by
  intro j hdirty
  by_cases hj : (Instr.fields i).index = j
  · rw [← hj]
    exact executed_valid i s
  · rw [executed_line_of_ne i s hj] at hdirty ⊢
    exact h j hdirty

/-! ### Every outcome of a step keeps the invariant -/

section
variable {s : State}

theorem inv_withStream (h : Inv s) (rest : List Request) : Inv (s.withStream rest) :=
  ⟨h.memory, h.dirty, h.clean, h.controller, h.fault, h.fresh, h.output⟩

/-- Fault entry keeps the invariant where no fault was recorded and the history may end in a fault. -/
theorem inv_raise (h : Inv s) (hphase : s.phase ≠ .faulted)
    (hout : s.out.map Event.kind = runEvents s.verbose s.rc ∨ s.rc = 0 ∧ s.out = []) (code : FaultCode) (info : FaultInfo) :
    Inv (s.raise code info) where
  memory := h.memory
  dirty := h.dirty
  clean := h.clean
  controller := rfl
  fault := faultRecordOfPhase_raise (fault_eq_none_of_phase h.fault hphase) code info
  fresh := fun hlaunch => absurd hlaunch (by simp)
  output := by
    rw [outputOrdered_faulted (State.raise_phase ..), State.raise_out, List.map_append, State.raise_verbose, State.raise_rc]
    obtain hrun | ⟨hrc, hempty⟩ := hout
    · exact .inl (by rw [hrun]; rfl)
    · exact .inr ⟨hrc, by rw [hempty]; rfl⟩

theorem inv_executed (h : Inv s) (hphase : s.phase = .running) (i : Instr) : Inv (executed i s) where
  memory := by
    rw [MemoryCanonical, executed_mem]
    exact wf_makeResident _ h.memory
  dirty := dirtyIsValid_executed h.dirty i
  clean := clean_executed h.clean i
  controller := (executed_fsm i s).trans h.controller
  fault := faultRecordOfPhase_of_kept h.fault (by simp [hphase]) (executed_fault i s) (by simp [hphase])
  fresh := fun hlaunch => absurd hlaunch (by simp [hphase])
  output := by
    rw [outputOrdered_running (by simp [hphase]), executed_verbose, executed_rc]
    exact map_kind_executed_out i s ((outputOrdered_running hphase).1 h.output)

theorem inv_endOfStream (h : Inv s) (hphase : s.phase = .running) : Inv (endOfStream s) where
  memory := h.memory
  dirty := h.dirty
  clean := h.clean
  controller := h.controller
  fault := faultRecordOfPhase_of_kept h.fault (by simp [hphase]) rfl (by simp)
  fresh := fun hlaunch => absurd hlaunch (by simp)
  output := by
    rw [outputOrdered_done (endOfStream_phase s), endOfStream_out, List.append_assoc, List.map_append,
      (outputOrdered_running hphase).1 h.output]
    rfl

/-- The run starts with no valid line, so that the image cannot disagree with one (20_memory.md R63). -/
theorem inv_startRun (h : Inv s) (hphase : s.phase = .launch) (himage : firstMisaligned (imageOverlays s.host.image) = none) :
    Inv (startRun s) := by
  obtain ⟨hrc, hinvalid⟩ := h.fresh hphase
  have hempty := (outputOrdered_launch hphase).1 h.output
  refine ⟨?_, dirtyIsValid_of_lines h.dirty (startRun_lines s), clean_of_invalid fun i => ?_,
    (startRun_fsm s).trans h.controller,
    faultRecordOfPhase_of_kept h.fault (by simp [hphase]) (startRun_fault s) (by simp),
    fun hlaunch => absurd hlaunch (by simp), ?_⟩
  · rw [MemoryCanonical, startRun_mem]
    exact wf_applyOverlays h.memory himage
  · rw [State.line_eq_of_lines (startRun_lines s)]
    exact hinvalid i
  · rw [outputOrdered_running (startRun_phase s), startRun_out, hempty, List.nil_append, map_kind_verbose, startRun_verbose,
      startRun_rc, hrc, runEvents_zero]

theorem inv_aborted (h : Inv s) (hphase : s.phase = .launch) : Inv { s with phase := .aborted } where
  memory := h.memory
  dirty := h.dirty
  clean := h.clean
  controller := h.controller
  fault := faultRecordOfPhase_of_kept h.fault (by simp [hphase]) rfl (by simp)
  fresh := fun hlaunch => absurd hlaunch (by simp)
  output := (outputOrdered_aborted rfl).2 ((outputOrdered_launch hphase).1 h.output)

theorem inv_launch (h : Inv s) (hphase : s.phase = .launch) : Inv (launch s) := by
  obtain ⟨-, hs⟩ | ⟨base, -, -, hs⟩ | ⟨-, himage, hs⟩ := launch_cases s <;> rw [hs]
  · exact inv_aborted h hphase
  · obtain ⟨hrc, -⟩ := h.fresh hphase
    exact inv_raise h (by simp [hphase]) (.inr ⟨hrc, (outputOrdered_launch hphase).1 h.output⟩) _ _
  · exact inv_startRun h hphase himage

end

theorem inv_step {s t : State} (h : Inv s) (hstep : step s = .next t) : Inv t := by
  obtain ⟨hphase, rfl⟩ | ⟨req, rest, code, hphase, -, -, rfl⟩ | ⟨req, rest, hphase, -, -, rfl⟩ | ⟨hphase, -, -, rfl⟩ :=
    step_outcomes hstep
  · exact inv_launch h hphase
  · exact inv_raise (inv_withStream h rest) (by simp [hphase]) (.inl ((outputOrdered_running hphase).1 h.output)) _ _
  · exact inv_executed (inv_withStream h rest) hphase _
  · exact inv_endOfStream h hphase

/-- Settles O15, by the outcome of the step. -/
theorem stepKeepsTheInvariant : Obligations.StepKeepsTheInvariant := by
  unfold Obligations.StepKeepsTheInvariant
  exact fun _ _ => inv_step

/-! ### Construction -/

theorem inv_construct (v : Bool) (host : HostInputs) : Inv (State.construct v host) where
  memory := wf_reset
  dirty := fun i hdirty => by simp at hdirty
  clean := clean_of_invalid fun i => by simp
  controller := rfl
  fault := faultRecordOfPhase_of_none rfl (by simp)
  fresh := fun _ => ⟨rfl, fun i => by simp⟩
  output := (outputOrdered_launch rfl).2 rfl

/-- Settles O14: reset is one of the constructions. -/
theorem constructionMeetsTheInvariant : Obligations.ConstructionMeetsTheInvariant := by
  unfold Obligations.ConstructionMeetsTheInvariant
  exact ⟨inv_construct false HostInputs.nothing, inv_construct⟩

/-! ### The events of a run that ends well -/

/-- How often each kind of event stands in the history of `n` records: their traces, and with VERBOSE a snapshot for each and one
for the launch. -/
theorem count_runEvents (v : Bool) (n : Nat) :
    (runEvents v n).count .trace = n ∧ (runEvents v n).count .snapshot = (if v then n + 1 else 0)
      ∧ (runEvents v n).count .fault = 0 ∧ (runEvents v n).count .ended = 0 := by
  induction n with
  | zero => cases v <;> decide
  | succ n ih =>
    obtain ⟨htrace, hsnapshot, hfault, hended⟩ := ih
    simp only [runEvents_succ, List.count_append, htrace, hsnapshot, hfault, hended]
    cases v <;> simp

theorem run_inv {k : Nat} {s t : State} (h : Inv s) (hrun : core.run k s = .next t) : Inv t :=
  run_keeps (fun _ _ => inv_step) h hrun

theorem run_verbose {k : Nat} {s t : State} (hrun : core.run k s = .next t) : t.verbose = s.verbose :=
  run_keeps (P := fun u => u.verbose = s.verbose) (fun _ _ hu hstep => (step_verbose hstep).trans hu) rfl hrun

/-- Settles O46: the invariant gives the kinds of the events at the end, and these are counted. -/
theorem runsThatEndWellEmitTheirSnapshots : Obligations.RunsThatEndWellEmitTheirSnapshots := by
  unfold Obligations.RunsThatEndWellEmitTheirSnapshots
  intro k verbose host t hrun hdone
  have hkinds := (outputOrdered_done hdone).1 (run_inv (inv_construct verbose host) hrun).output
  obtain ⟨htrace, hsnapshot, hfault, hended⟩ := count_runEvents verbose t.rc
  rw [run_verbose hrun, State.construct_verbose] at hkinds
  simp only [hkinds, List.count_append, htrace, hsnapshot, hfault, hended]
  cases verbose <;> simp

end Sys2Proof.Machine
end

section
/-! PROOFS. The hidden fields of invalid lines (10_state.md R28): no step reads the dirty bit, the tag or the data of an invalid line,
except to show them in a snapshot. -/

namespace Sys2Proof.Machine

/-! ### Lines that agree but for the hidden fields of invalid ones -/

theorem SameLine.refl (l : Line) : SameLine l l := ⟨rfl, fun _ => rfl⟩

/-- Two such lines agree on every flag that `valid` guards: a line that is invalid in one is invalid in both. -/
theorem SameLine.valid_and_eq {l m : Line} (h : SameLine l m) (flag : Line → Bool) :
    (l.valid && flag l) = (m.valid && flag m) := by
  obtain ⟨hvalid, hfields⟩ := h
  cases hl : l.valid with
  | false => rw [← hvalid, hl, Bool.false_and, Bool.false_and]
  | true => rw [← hfields hl, hl]

section
variable {s t : State}

/-! ### What a step reads of two related states -/

theorem SameButInvalidLines.sameLine (h : SameButInvalidLines s t) (i : Index) : SameLine (s.line i) (t.line i) := by
  obtain ⟨-, -, hl, -⟩ := h
  exact hl i

theorem SameButInvalidLines.line_eq (h : SameButInvalidLines s t) {i : Index} (hvalid : (s.line i).valid = true) :
    s.line i = t.line i := (h.sameLine i).2 hvalid

theorem SameButInvalidLines.lookup_eq (h : SameButInvalidLines s t) (i : Index) (g : Tag) : lookup s i g = lookup t i g :=
  (h.sameLine i).valid_and_eq fun l => l.tag == g

theorem SameButInvalidLines.needsWriteBack_eq (h : SameButInvalidLines s t) (i : Index) :
    needsWriteBack s i = needsWriteBack t i := (h.sameLine i).valid_and_eq Line.dirty

theorem SameButInvalidLines.mem_eq (h : SameButInvalidLines s t) : s.mem = t.mem := by
  obtain ⟨-, hm, -⟩ := h
  exact hm

theorem SameButInvalidLines.readReg_eq (h : SameButInvalidLines s t) (r : RegIndex) : s.readReg r = t.readReg r := by
  obtain ⟨hx, -⟩ := h
  simp [State.readReg, hx]

theorem SameButInvalidLines.phase_eq (h : SameButInvalidLines s t) : s.phase = t.phase := by
  obtain ⟨-, -, -, -, hp, -⟩ := h
  exact hp

theorem SameButInvalidLines.host_eq (h : SameButInvalidLines s t) : s.host = t.host := by
  obtain ⟨-, -, -, -, -, -, -, -, hh, -⟩ := h
  exact hh

theorem SameButInvalidLines.accepting_eq (h : SameButInvalidLines s t) : s.accepting = t.accepting := by
  obtain ⟨-, -, -, -, hp, -, hc, -⟩ := h
  simp [State.accepting, hp, hc]

/-! ### Every operation of a step keeps `SameButInvalidLines` -/

theorem sameButInvalidLines_withStream (h : SameButInvalidLines s t) (rest : List Request) :
    SameButInvalidLines (s.withStream rest) (t.withStream rest) := by
  obtain ⟨hx, hm, hl, hr, hp, hf, hc, hv, hh, ho⟩ := h
  exact ⟨hx, hm, hl, hr, hp, hf, hc, hv, by simp [hh], ho⟩

theorem sameButInvalidLines_raise (h : SameButInvalidLines s t) (code : FaultCode) (info : FaultInfo) :
    SameButInvalidLines (s.raise code info) (t.raise code info) := by
  obtain ⟨hx, hm, hl, hr, -, hf, -, hv, hh, ho⟩ := h
  exact ⟨hx, hm, hl, hr, rfl, by simp [hf, hr], rfl, hv, hh, by simp [hf, hr, ho]⟩

/-- The final snapshot may show hidden fields; without the snapshots the histories are equal. -/
theorem sameButInvalidLines_endOfStream (h : SameButInvalidLines s t) :
    SameButInvalidLines (endOfStream s) (endOfStream t) := by
  obtain ⟨hx, hm, hl, hr, -, hf, hc, hv, hh, ho⟩ := h
  refine ⟨hx, hm, hl, hr, rfl, hf, hc, hv, hh, ?_⟩
  simp only [endOfStream_out, withoutSnapshots_append, ho]
  rfl

theorem sameButInvalidLines_startRun (h : SameButInvalidLines s t) : SameButInvalidLines (startRun s) (startRun t) := by
  obtain ⟨hx, hm, hl, hr, -, hf, hc, hv, hh, ho⟩ := h
  have hpre : (startRun s).x = (startRun t).x := by
    rw [startRun_x, startRun_x, hh, applyPreloads_x_congr _ hx]
  have hlines : ∀ i, SameLine ((startRun s).line i) ((startRun t).line i) := fun i => by
    rw [State.line_eq_of_lines (startRun_lines s), State.line_eq_of_lines (startRun_lines t)]
    exact hl i
  exact ⟨hpre, by simp [hm, hh], hlines, by simp [hr], by simp, by simp [hf], by simp [hc], by simp [hv], by simp [hh],
    by simp [startRun_out, ho]⟩

theorem sameButInvalidLines_launch (h : SameButInvalidLines s t) : SameButInvalidLines (launch s) (launch t) := by
  unfold launch
  rw [h.host_eq]
  cases t.host.sourceReadable with
  | false =>
    obtain ⟨hx, hm, hl, hr, -, hf, hc, hv, -, ho⟩ := h
    exact ⟨hx, hm, hl, hr, rfl, hf, hc, hv, rfl, ho⟩
  | true =>
    cases firstMisaligned (imageOverlays t.host.image) with
    | some base => exact sameButInvalidLines_raise h _ _
    | none => exact sameButInvalidLines_startRun h

/-- A line that is written back is valid, so that its tag and data are the same in both states. -/
theorem sameButInvalidLines_writeBack (h : SameButInvalidLines s t) {i : Index} (hvalid : (s.line i).valid = true) :
    SameButInvalidLines (writeBack s i) (writeBack t i) := by
  have hline := h.line_eq hvalid
  obtain ⟨hx, hm, hl, hr, hp, hf, hc, hv, hh, ho⟩ := h
  exact ⟨hx, by simp [hm, hline], hl, hr, hp, hf, hc, hv, hh, ho⟩

theorem sameButInvalidLines_setLine (h : SameButInvalidLines s t) (i : Index) (l : Line) :
    SameButInvalidLines (s.setLine i l) (t.setLine i l) := by
  obtain ⟨hx, hm, hl, hr, hp, hf, hc, hv, hh, ho⟩ := h
  refine ⟨hx, hm, fun j => ?_, hr, hp, hf, hc, hv, hh, ho⟩
  rw [State.line_setLine, State.line_setLine]
  split
  · exact SameLine.refl l
  · exact hl j

theorem sameButInvalidLines_writeReg (h : SameButInvalidLines s t) (r : RegIndex) (v : Word) :
    SameButInvalidLines (s.writeReg r v) (t.writeReg r v) := by
  obtain ⟨hx, hm, hl, hr, hp, hf, hc, hv, hh, ho⟩ := h
  exact ⟨by simp [hx], hm, hl, hr, hp, hf, hc, hv, hh, ho⟩

theorem sameButInvalidLines_fillLine (h : SameButInvalidLines s t) (i : Index) (g : Tag) (base : Addr) :
    SameButInvalidLines (fillLine s i g base) (fillLine t i g base) := by
  rw [fillLine, fillLine, h.mem_eq]
  exact sameButInvalidLines_setLine h i _

theorem sameButInvalidLines_missLine (h : SameButInvalidLines s t) (i : Index) (g : Tag) (base : Addr) :
    SameButInvalidLines (missLine s i g base) (missLine t i g base) := by
  rw [missLine, missLine, ← h.needsWriteBack_eq]
  refine sameButInvalidLines_fillLine ?_ i g base
  split
  next hwrites =>
    obtain ⟨hvalid, -⟩ := (needsWriteBack_iff ..).1 hwrites
    exact sameButInvalidLines_writeBack h hvalid
  next => exact h

theorem sameButInvalidLines_makeResident (h : SameButInvalidLines s t) (f : AddressFields) :
    SameButInvalidLines (makeResident s f) (makeResident t f) := by
  rw [makeResident, makeResident, h.lookup_eq]
  split
  · exact h
  · exact sameButInvalidLines_missLine h _ _ _

/-- An access to a valid line moves the same value and leaves the states related. -/
theorem sameButInvalidLines_accessLine (h : SameButInvalidLines s t) (i : Instr) {f : AddressFields}
    (hvalid : (s.line f.index).valid = true) :
    SameButInvalidLines (accessLine i f s).1 (accessLine i f t).1 ∧ (accessLine i f s).2 = (accessLine i f t).2 := by
  cases i with
  | ldr r a =>
    simp only [accessLine, h.line_eq hvalid]
    exact ⟨sameButInvalidLines_writeReg h _ _, trivial⟩
  | str r a =>
    simp only [accessLine, storeToLine, h.line_eq hvalid, h.readReg_eq]
    exact ⟨sameButInvalidLines_setLine h _ _, trivial⟩

theorem sameButInvalidLines_respond (h : SameButInvalidLines s t) (e : Trace) :
    SameButInvalidLines (respond s e) (respond t e) := by
  obtain ⟨hx, hm, hl, hr, hp, hf, hc, hv, hh, ho⟩ := h
  exact ⟨by simp [hx], by simp [hm], by simpa using hl, by simp [hr], by simp [hp], by simp [hf], by simp [hc], by simp [hv],
    by simp [hh], by simp [respond_out, ho]⟩

/-- A record accesses its line only once it is resident, and so valid. -/
theorem sameButInvalidLines_executed (h : SameButInvalidLines s t) (i : Instr) :
    SameButInvalidLines (executed i s) (executed i t) := by
  have hhit : recordHit i s = recordHit i t := h.lookup_eq _ _
  obtain ⟨hstate, hvalue⟩ := sameButInvalidLines_accessLine (sameButInvalidLines_makeResident h (Instr.fields i)) i
    (makeResident_valid s (Instr.fields i))
  simp only [executed, hhit, hvalue]
  exact sameButInvalidLines_respond hstate _

theorem sameOutcome_exec_of_sameButInvalidLines (h : SameButInvalidLines s t) (i : Instr) :
    SameOutcome SameButInvalidLines (exec i s) (exec i t) := by
  rw [exec_eq, exec_eq, h.accepting_eq]
  cases t.accepting with
  | false => exact rfl
  | true =>
    cases recordFault i with
    | some code => exact sameButInvalidLines_raise h code _
    | none => exact sameButInvalidLines_executed h i

theorem sameOutcome_step_of_sameButInvalidLines (h : SameButInvalidLines s t) :
    SameOutcome SameButInvalidLines (step s) (step t) := by
  unfold step
  rw [h.phase_eq, h.host_eq]
  cases t.phase with
  | launch => exact sameButInvalidLines_launch h
  | running =>
    cases t.host.stream with
    | cons req rest => exact sameOutcome_exec_of_sameButInvalidLines (sameButInvalidLines_withStream h rest) _
    | nil =>
      cases t.host.streamEnds with
      | true => exact sameButInvalidLines_endOfStream h
      | false => exact rfl
  | done | faulted | aborted => exact rfl

end

/-- Settles O50: each operation of a step reads the fields of valid lines only. -/
theorem fieldsOfInvalidLinesAffectNothing : Obligations.FieldsOfInvalidLinesAffectNothing := by
  unfold Obligations.FieldsOfInvalidLinesAffectNothing
  exact fun _ _ => sameOutcome_step_of_sameButInvalidLines

end Sys2Proof.Machine
end

section
/-! PROOFS. Steps: which record a step runs and where it stops (43_arbiter.md R191, 93_implementation_defined.md U13, U14), and what a
step changes of registers, memory and lines (10_state.md, 20_memory.md, 41_cache_controller.md section 2). -/

namespace Sys2Proof.Machine

/-! ### The record a step runs -/

theorem step_of_request {s : State} {req : Request} {rest : List Request} (hphase : s.phase = .running)
    (hstream : s.host.stream = req :: rest) : step s = exec (fetchRecord req) (s.withStream rest) := by
  simp only [step, hphase, hstream]

/-- Settles O31. -/
theorem stepRunsTheDecodedRecord : Obligations.StepRunsTheDecodedRecord := by
  unfold Obligations.StepRunsTheDecodedRecord
  exact fun s rest hphase => ⟨fun w hw => step_of_request hphase hw, fun i hi => step_of_request hphase hi⟩

/-- A word of the port fits in 24 bits and in its own 21, so that it is loaded as it is (entry 4). -/
theorem withFetchWord_eq (s : State) (w : RequestWord) :
    s.withFetchWord 24 w.toNat =
      { s with phase := .running, fsm := .idle, host := { s.host with stream := [.word w] } } := by
  have hmod : w.toNat % 2 ^ 24 = w.toNat := by omega
  rw [State.withFetchWord, hmod, if_pos w.isLt, BitVec.ofNat_toNat, BitVec.setWidth_eq]

/-- Settles O32: the word loaded is decoded to the record it encodes. -/
theorem aLoadedWordIsRunByTheNextStep : Obligations.ALoadedWordIsRunByTheNextStep := by
  unfold Obligations.ALoadedWordIsRunByTheNextStep
  intro i s hi
  rw [withFetchWord_eq, step_of_request (req := .word (encode i)) (rest := []) rfl rfl, fetchRecord,
    decodeEncodeIsIdentity i hi]
  rfl

/-! ### Where a step stops -/

theorem step_of_waiting {s : State} (hphase : s.phase = .running) (hempty : s.host.stream = [])
    (hends : s.host.streamEnds = false) : step s = .fault .waitingForHost := by
  simp only [step, hphase, hempty, hends, Bool.false_eq_true, if_false]

/-- A request presented to an IDLE controller has a next state. -/
theorem exists_step_of_request {s : State} {req : Request} {rest : List Request} (hphase : s.phase = .running)
    (hstream : s.host.stream = req :: rest) (hidle : s.fsm = .idle) : ∃ t, step s = .next t := by
  have haccepting : (s.withStream rest).accepting = true := (accepting_iff _).2 ⟨hphase, hidle⟩
  rw [step_of_request hphase hstream]
  exact exists_exec_next_of_accepting haccepting _

/-- A request presented to a controller that is not IDLE has no step (43_arbiter.md R191). -/
theorem step_of_busy {s : State} {req : Request} {rest : List Request} (hphase : s.phase = .running)
    (hstream : s.host.stream = req :: rest) (hbusy : s.fsm ≠ .idle) : step s = .fault .recordNotAccepted := by
  rw [step_of_request hphase hstream]
  refine exec_of_not_accepting (fun haccepting => ?_) _
  obtain ⟨-, hidle⟩ := (accepting_iff _).1 haccepting
  exact hbusy hidle

/-- Settles O30, by the phase, the stream and the controller: in each case the answer of `step` is known. -/
theorem stepStopsExactlyWhereTheSpecSays : Obligations.StepStopsExactlyWhereTheSpecSays := by
  unfold Obligations.StepStopsExactlyWhereTheSpecSays
  intro s
  cases hphase : s.phase with
  | launch => simp [step_of_launch hphase]
  | running =>
    cases hstream : s.host.stream with
    | nil =>
      cases hends : s.host.streamEnds with
      | true => simp [step_of_streamEnd hphase hstream hends]
      | false => simp [step_of_waiting hphase hstream hends]
    | cons req rest =>
      by_cases hidle : s.fsm = .idle
      · obtain ⟨t, ht⟩ := exists_step_of_request hphase hstream hidle
        simp [ht, hidle]
      · simp [step_of_busy hphase hstream hidle, hidle]
  | done => simp [step_of_finalPhase (.inl hphase)]
  | faulted => simp [step_of_finalPhase (.inr (.inl hphase))]
  | aborted => simp [step_of_finalPhase (.inr (.inr hphase))]

/-! ### What a step changes once Running -/

/-- A step in phase Running leaves registers, memory and lines as they are, or executes the record presented. -/
theorem step_running_cases {s t : State} (hphase : s.phase = .running) (h : step s = .next t) :
    (t.x = s.x ∧ t.mem = s.mem ∧ t.lines = s.lines)
      ∨ ∃ req rest, s.host.stream = req :: rest ∧ recordFault (fetchRecord req) = none
        ∧ t = executed (fetchRecord req) (s.withStream rest) := by
  obtain ⟨hlaunch, -⟩ | ⟨req, rest, code, -, -, -, rfl⟩ | ⟨req, rest, -, hs, hf, rfl⟩ | ⟨-, -, -, rfl⟩ := step_outcomes h
  · simp [hphase] at hlaunch
  · exact .inl ⟨rfl, rfl, rfl⟩
  · exact .inr ⟨req, rest, hs, hf, rfl⟩
  · exact .inl ⟨rfl, rfl, rfl⟩

/-- Settles O37: of the two operations only LDR writes a register, and only its own. -/
theorem registersChangeOnlyByTheirLdr : Obligations.RegistersChangeOnlyByTheirLdr := by
  unfold Obligations.RegistersChangeOnlyByTheirLdr
  intro s t q hphase hstep hchange
  obtain ⟨hx, -, -⟩ | ⟨req, rest, hs, hf, rfl⟩ := step_running_cases hphase hstep
  · exact absurd (by simp only [State.readReg, hx]) hchange
  · cases hrecord : fetchRecord req with
    | ldr r a =>
      rw [hrecord] at hf hchange
      refine ⟨req, rest, r, a, hs, hrecord, hf, ?_⟩
      by_contra hq
      exact hchange ((readReg_executed_ldr hf _ q).trans (if_neg hq))
    | str r a =>
      rw [hrecord] at hchange
      exact absurd (executed_str_readReg r a _ q) hchange

/-- A byte of memory that making a line resident changes lies in the block written back, and becomes the line's byte. -/
theorem makeResident_read_ne {s : State} {f : AddressFields} {b : Nat}
    (h : Memory.read (makeResident s f).mem b ≠ Memory.read s.mem b) :
    WritesBack f s ∧ ∃ k : Offset, b = (lineBase (s.line f.index).tag f.index).toNat + k.toNat
      ∧ Memory.read (makeResident s f).mem b = blockByte (s.line f.index).data k := by
  have hevicted := mt makeResident_read_other h
  push Not at hevicted
  obtain ⟨hwrites, k, rfl⟩ := hevicted
  exact ⟨hwrites, k, rfl, makeResident_read_evicted hwrites k⟩

/-- Settles O38: memory is written only where the record's line is made resident. -/
theorem memoryChangesOnlyByWriteBack : Obligations.MemoryChangesOnlyByWriteBack := by
  unfold Obligations.MemoryChangesOnlyByWriteBack
  intro s t b hphase hstep hchange
  obtain ⟨-, hm, -⟩ | ⟨req, rest, hs, hf, rfl⟩ := step_running_cases hphase hstep
  · exact absurd (by rw [hm]) hchange
  · rw [executed_mem] at hchange ⊢
    obtain ⟨hwrites, hbyte⟩ := makeResident_read_ne (s := s.withStream rest) hchange
    exact ⟨req, rest, _, hs, rfl, hwrites, hbyte⟩

/-! ### What a step changes of a line -/

/-- A step changes a line only by executing a record at its index. -/
theorem step_line_cases {s t : State} (j : Index) (h : step s = .next t) :
    t.line j = s.line j
      ∨ ∃ req rest, s.phase = .running ∧ s.host.stream = req :: rest ∧ recordFault (fetchRecord req) = none
        ∧ (Instr.fields (fetchRecord req)).index = j ∧ t = executed (fetchRecord req) (s.withStream rest) := by
  obtain ⟨-, rfl⟩ | ⟨req, rest, code, -, -, -, rfl⟩ | ⟨req, rest, hp, hs, hf, rfl⟩ | ⟨-, -, -, rfl⟩ := step_outcomes h
  · exact .inl (launch_line s j)
  · exact .inl rfl
  · by_cases hj : (Instr.fields (fetchRecord req)).index = j
    · exact .inr ⟨req, rest, hp, hs, hf, hj, rfl⟩
    · exact .inl (executed_line_of_ne _ _ hj)
  · exact .inl rfl

/-- A record that changes the dirty bit of its line is a STR if it sets it, and misses if it clears it. -/
theorem executed_dirty_change {i : Instr} {s : State}
    (h : ((executed i s).line (Instr.fields i).index).dirty ≠ (s.line (Instr.fields i).index).dirty) :
    (((executed i s).line (Instr.fields i).index).dirty = true → i.op = .str)
      ∧ (((executed i s).line (Instr.fields i).index).dirty = false → recordHit i s = false) := by
  constructor
  · intro hset
    by_contra hop
    have hbefore : (s.line (Instr.fields i).index).dirty = true := by
      simp only [executed_dirty, hop, decide_false, Bool.false_or, Bool.and_eq_true] at hset
      exact hset.2
    exact h (hset.trans hbefore.symm)
  · intro hcleared
    refine Bool.eq_false_iff.2 fun hhit => ?_
    have hbefore : (s.line (Instr.fields i).index).dirty = false := by
      simp only [executed_dirty, hhit, Bool.true_and, Bool.or_eq_false_iff] at hcleared
      exact hcleared.2
    exact h (hcleared.trans hbefore.symm)

/-- Settles O39: the line of an executed record, by its operation and the outcome of its lookup. -/
theorem dirtyBitsChangeOnlyByStoreAndFill : Obligations.DirtyBitsChangeOnlyByStoreAndFill := by
  unfold Obligations.DirtyBitsChangeOnlyByStoreAndFill
  intro s t j hstep hchange
  obtain hline | ⟨req, rest, hphase, hs, hf, rfl, rfl⟩ := step_line_cases j hstep
  · exact absurd (by rw [hline]) hchange
  · obtain ⟨hset, hcleared⟩ := executed_dirty_change (s := s.withStream rest) hchange
    exact ⟨req, rest, _, hphase, hs, rfl, rfl, hf, hset, hcleared⟩

/-- Settles O40: an executed record leaves its line valid with its tag, and on a hit the line had both before. -/
theorem validIsNeverClearedAndTagsChangeOnlyByFill : Obligations.ValidIsNeverClearedAndTagsChangeOnlyByFill := by
  unfold Obligations.ValidIsNeverClearedAndTagsChangeOnlyByFill
  intro s t j hstep
  obtain hline | ⟨req, rest, hphase, hs, -, rfl, rfl⟩ := step_line_cases j hstep
  · rw [hline]
    exact ⟨id, fun hchange => by simp at hchange⟩
  · obtain ⟨hvalid, htag⟩ := holdsTag_executed (fetchRecord req) (s.withStream rest)
    refine ⟨fun _ => hvalid, fun hchange => ⟨req, rest, _, hphase, hs, rfl, rfl, ?_, hvalid, htag⟩⟩
    refine Bool.eq_false_iff.2 fun hhit => ?_
    obtain ⟨hvalidBefore, htagBefore⟩ := (lookup_iff ..).1 hhit
    exact hchange.elim (fun h => h (hvalid.trans hvalidBefore.symm)) fun h => h (htag.trans htagBefore.symm)

end Sys2Proof.Machine
end

section
/-! PROOFS. The start of a run and its end: the state at the first record (70_reset_and_hazards.md section 2), and that every run over
a finite stream ends (section 3). -/

namespace Sys2Proof.Machine

/-! ### The launch with a source and legal overlays (43_arbiter.md R196) -/

theorem launch_of_legal {s : State} (hsource : s.host.sourceReadable = true)
    (hlegal : ∀ o ∈ imageOverlays s.host.image, LegalBase o) : launch s = startRun s := by
  simp [launch, hsource, firstMisaligned_eq_none.2 hlegal]

/-- After construction the overlays are written over memory that reads as 0 everywhere. -/
theorem read_startRun_construct (v : Bool) (host : HostInputs) (a : Nat) :
    Memory.read (startRun (State.construct v host)).mem a = imageByte (imageOverlays host.image) a := by
  have hread := read_applyOverlays (imageOverlays host.image) [] a
  rw [Memory.read_nil] at hread
  rw [startRun_mem, State.construct_mem, State.construct_host]
  exact hread

/-- After construction the preloads are written over registers that hold 0. -/
theorem readReg_startRun_construct (v : Bool) (host : HostInputs) (r : RegIndex) :
    (startRun (State.construct v host)).readReg r = preloadValue host.preloads r := by
  have hpreloaded : (startRun (State.construct v host)).readReg r =
      (applyPreloads (State.construct v host) host.preloads).readReg r := by
    simp only [State.readReg, startRun_x, State.construct_host]
  have hread := readReg_applyPreloads host.preloads (State.construct v host) r
  rw [State.construct_readReg] at hread
  exact hpreloaded.trans hread

theorem startRun_construct_line (v : Bool) (host : HostInputs) (i : Index) :
    (startRun (State.construct v host)).line i = Line.reset := by
  rw [State.line_eq_of_lines (startRun_lines _), State.construct_line]

/-- Settles O42: the launch is `startRun`, from the values of construction. -/
theorem launchStartsTheRun : Obligations.LaunchStartsTheRun := by
  unfold Obligations.LaunchStartsTheRun
  intro verbose host hsource hlegal
  have hstep : step (State.construct verbose host) = .next (startRun (State.construct verbose host)) := by
    rw [step_of_launch (State.construct_phase ..), launch_of_legal hsource hlegal]
  exact ⟨_, hstep, startRun_phase _, startRun_rc _, startRun_fault _, startRun_fsm _, startRun_construct_line verbose host,
    fun a => read_startRun_construct verbose host a.toNat, readReg_startRun_construct verbose host, startRun_out _,
    startRun_verbose _, startRun_host _⟩

/-! ### Every run ends (70_reset_and_hazards.md section 3) -/

/-- The run has ended: Done, Faulted or Aborted. -/
def HasEnded (s : State) : Prop := s.phase = .done ∨ s.phase = .faulted ∨ s.phase = .aborted

/-- Within `n` steps the run ends. -/
def EndsWithin (n : Nat) (s : State) : Prop := ∃ k t, k ≤ n ∧ core.run k s = .next t ∧ HasEnded t

theorem endsWithin_of_hasEnded {s : State} (h : HasEnded s) (n : Nat) : EndsWithin n s :=
  ⟨0, s, Nat.zero_le n, run_zero s, h⟩

theorem endsWithin_succ {n : Nat} {s t : State} (hstep : step s = .next t) (h : EndsWithin n t) : EndsWithin (n + 1) s := by
  obtain ⟨k, u, hk, hrun, hended⟩ := h
  exact ⟨k + 1, u, Nat.succ_le_succ hk, (run_succ_of_next hstep k).trans hrun, hended⟩

/-- A running block with `n` records left ends within `n + 1` steps: a record faults, or leaves one record less. -/
theorem endsWithin_of_running {s : State} {stream : List Request} (hstream : s.host.stream = stream)
    (hphase : s.phase = .running) (hidle : s.fsm = .idle) (hends : s.host.streamEnds = true) :
    EndsWithin (stream.length + 1) s := by
  induction stream generalizing s with
  | nil =>
    exact endsWithin_succ (step_of_streamEnd hphase hstream hends) (endsWithin_of_hasEnded (.inl (endOfStream_phase s)) _)
  | cons req rest ih =>
    have haccepting : (s.withStream rest).accepting = true := (accepting_iff _).2 ⟨hphase, hidle⟩
    have hstep := step_of_request hphase hstream
    cases hf : recordFault (fetchRecord req) with
    | some code =>
      rw [exec_of_fault haccepting hf] at hstep
      exact endsWithin_succ hstep (endsWithin_of_hasEnded (.inr (.inl (State.raise_phase ..))) _)
    | none =>
      rw [exec_of_ok haccepting hf] at hstep
      exact endsWithin_succ hstep (ih (by simp) (by simp [hphase]) (by simp [hidle]) (by simp [hends]))

theorem launch_fsm_of_idle {s : State} (h : s.fsm = .idle) : (launch s).fsm = .idle := by
  obtain ⟨-, hs⟩ | ⟨base, -, -, hs⟩ | ⟨-, -, hs⟩ := launch_cases s <;> simp [hs, h]

theorem launch_host (s : State) : (launch s).host = s.host := by
  obtain ⟨-, hs⟩ | ⟨base, -, -, hs⟩ | ⟨-, -, hs⟩ := launch_cases s <;> simp [hs]

/-- The launch ends the run, or starts it with the stream untouched. -/
theorem endsWithin_launch {s : State} (hidle : s.fsm = .idle) (hends : s.host.streamEnds = true) :
    EndsWithin (s.host.stream.length + 1) (launch s) := by
  obtain ⟨-, hp⟩ | ⟨-, -, hp⟩ | ⟨-, -, hp⟩ := launch_phase s
  · exact endsWithin_of_hasEnded (.inr (.inr hp)) _
  · exact endsWithin_of_hasEnded (.inr (.inl hp)) _
  · exact endsWithin_of_running (by rw [launch_host]) hp (launch_fsm_of_idle hidle) (by rw [launch_host, hends])

theorem endsWithin_mono {m n : Nat} (h : m ≤ n) {s : State} (hm : EndsWithin m s) : EndsWithin n s := by
  obtain ⟨k, t, hk, hrun⟩ := hm
  exact ⟨k, t, hk.trans h, hrun⟩

/-- Settles O47, by the phase: one step for the launch, then those of a running block. -/
theorem everyRunEnds : Obligations.EveryRunEnds := by
  unfold Obligations.EveryRunEnds
  intro s hidle hends
  have hwithin : EndsWithin (s.host.stream.length + 2) s := by
    cases hphase : s.phase with
    | launch => exact endsWithin_succ (step_of_launch hphase) (endsWithin_launch hidle hends)
    | running => exact endsWithin_mono (by omega) (endsWithin_of_running rfl hphase hidle hends)
    | done => exact endsWithin_of_hasEnded (.inl hphase) _
    | faulted => exact endsWithin_of_hasEnded (.inr (.inl hphase)) _
    | aborted => exact endsWithin_of_hasEnded (.inr (.inr hphase)) _
  exact hwithin

end Sys2Proof.Machine
end

section
/-! PROOFS. The controller's state machine (41_cache_controller.md R131): row by row, what a tick does, and how the rows of a record
add up to the one step that `exec` gives (entry 10). -/

namespace Sys2Proof.Machine

/-- The controller in micro-state `m` with the record `i`, the rest of the block being `s`; `tick_present` and the rows after it say
that these are the controllers a presented record goes through. -/
def controllerAt (i : Instr) (s : State) (m : Fsm) (hit : Bool) (v : Word) : Controller :=
  { state := s.withFsm m, record := some i, hit := hit, value := v }

/-! ### One tick, row by row -/

section
variable (i : Instr) (s : State) (hit : Bool) (v : Word)

theorem tick_present {i : Instr} {s : State} (h : s.accepting = true) :
    tick (Controller.present s i) = controllerAt i s .check false 0 := by
  obtain ⟨hphase, hidle⟩ := (accepting_iff s).1 h
  simp [tick, Controller.present, hidle, tickIdle, hphase, controllerAt]

theorem tick_check_fault {i : Instr} {code : FaultCode} (h : recordFault i = some code) :
    tick (controllerAt i s .check hit v) = { state := s.raise code (.record i), record := none, hit := hit, value := v } := by
  simp only [tick, controllerAt, State.withFsm_fsm, tickCheck, h]
  rfl

theorem tick_check_ok {i : Instr} (h : recordFault i = none) :
    tick (controllerAt i s .check hit v) = controllerAt i s .lookup hit v := by
  simp only [tick, controllerAt, State.withFsm_fsm, tickCheck, h]
  rfl

theorem tick_lookup :
    tick (controllerAt i s .lookup hit v) =
      if recordHit i s then controllerAt i s .access true v
      else if needsWriteBack s (Instr.fields i).index then controllerAt i s .writeback false v
      else controllerAt i s .fill false v := rfl

theorem tick_writeback :
    tick (controllerAt i s .writeback hit v) = controllerAt i (writeBack s (Instr.fields i).index) .fill hit v := rfl

theorem tick_fill :
    tick (controllerAt i s .fill hit v) =
      controllerAt i (fillLine s (Instr.fields i).index (Instr.fields i).tag (Instr.fields i).blockBase) .access hit v := rfl

theorem tick_access :
    tick (controllerAt i s .access hit v) =
      controllerAt i (accessLine i (Instr.fields i) s).1 .respond hit (accessLine i (Instr.fields i) s).2 := by
  cases i <;> rfl

/-- The events of a record and the counter do not depend on the micro-state. -/
theorem respond_withFsm (m : Fsm) (e : Trace) : respond (s.withFsm m) e = (respond s e).withFsm m := by
  unfold respond State.verboseSnapshot
  cases hv : s.verbose <;> simp [hv] <;> rfl

theorem tick_respond (h : s.fsm = .idle) :
    tick (controllerAt i s .respond hit v) =
      { state := respond s (traceOf i (Instr.fields i) hit v), record := none, hit := hit, value := v } := by
  have hidle : (respond s (traceOf i (Instr.fields i) hit v)).withFsm .idle = respond s (traceOf i (Instr.fields i) hit v) := by
    have hfsm : (respond s (traceOf i (Instr.fields i) hit v)).fsm = .idle := (respond_fsm ..).trans h
    rw [State.withFsm, ← hfsm]
  have hrow : tick (controllerAt i s .respond hit v) =
      { state := (respond (s.withFsm .respond) (traceOf i (Instr.fields i) hit v)).withFsm .idle, record := none, hit := hit
        value := v } := rfl
  rw [hrow, respond_withFsm, ← hidle]
  rfl

end

/-! ### The rows of a record, back to IDLE -/

/-- After exactly `n` ticks the controller is back in IDLE without its record `i`, the block in state `t`; before that it is not. -/
def ReturnsAfter (i : Instr) (n : Nat) (c : Controller) (t : State) : Prop :=
  (∀ m < n, (ticks m c).state.fsm ≠ .idle ∧ (ticks m c).record = some i)
    ∧ (ticks n c).state = t ∧ t.fsm = .idle ∧ (ticks n c).record = none

theorem returnsAfter_zero {i : Instr} {c : Controller} (hidle : c.state.fsm = .idle) (hrecord : c.record = none) :
    ReturnsAfter i 0 c c.state :=
  ⟨fun _ hm => absurd hm (Nat.not_lt_zero _), rfl, hidle, hrecord⟩

/-- One row before the rows that bring the controller back. -/
theorem returnsAfter_succ {i : Instr} {s : State} {m : Fsm} {hit : Bool} {v : Word} {n : Nat} {t : State} (hbusy : m ≠ .idle)
    (h : ReturnsAfter i n (tick (controllerAt i s m hit v)) t) : ReturnsAfter i (n + 1) (controllerAt i s m hit v) t := by
  obtain ⟨hbefore, hend⟩ := h
  refine ⟨fun k hk => ?_, hend⟩
  cases k with
  | zero => exact ⟨hbusy, rfl⟩
  | succ k => exact hbefore k (Nat.lt_of_succ_lt_succ hk)

section
variable {i : Instr} {s : State} {hit : Bool} {v : Word}

theorem accessLine_fsm (i : Instr) (f : AddressFields) (s : State) : (accessLine i f s).1.fsm = s.fsm := by cases i <;> rfl

/-- Rows ACCESS and RESPOND. -/
theorem returnsAfter_access (h : s.fsm = .idle) :
    ReturnsAfter i 2 (controllerAt i s .access hit v)
      (respond (accessLine i (Instr.fields i) s).1
        (traceOf i (Instr.fields i) hit (accessLine i (Instr.fields i) s).2)) := by
  have hidle : (accessLine i (Instr.fields i) s).1.fsm = .idle := (accessLine_fsm ..).trans h
  refine returnsAfter_succ (by decide) ?_
  rw [tick_access]
  refine returnsAfter_succ (by decide) ?_
  rw [tick_respond _ _ _ _ hidle]
  exact returnsAfter_zero ((respond_fsm ..).trans hidle) rfl

/-- How many rows a record takes from LOOKUP on; `transitionCount_of_ok` ties it to the model's count. -/
def lookupRows (i : Instr) (s : State) : Nat :=
  if recordHit i s then 3 else if needsWriteBack s (Instr.fields i).index then 5 else 4

theorem transitionCount_of_ok (hf : recordFault i = none) (s : State) : transitionCount i s = lookupRows i s + 1 + 1 := by
  have hcount : transitionCount i s =
      if recordHit i s then 5 else if needsWriteBack s (Instr.fields i).index then 7 else 6 := by
    simp only [transitionCount, hf, Option.isSome_none, Bool.false_eq_true, if_false]
    rfl
  rw [hcount, lookupRows]
  split
  · rfl
  · split <;> rfl

theorem lookupRows_le (i : Instr) (s : State) : lookupRows i s ≤ 5 := by
  unfold lookupRows
  split
  · decide
  · split <;> decide

/-- Row LOOKUP and those after it: what they do is the record's execution, whichever way the lookup goes. -/
theorem returnsAfter_lookup (h : s.fsm = .idle) :
    ReturnsAfter i (lookupRows i s) (controllerAt i s .lookup hit v) (executed i s) := by
  cases hhit : recordHit i s with
  | true =>
    have hresident : makeResident s (Instr.fields i) = s := makeResident_hit s hhit
    simp only [lookupRows, if_true, executed, hresident, hhit]
    refine returnsAfter_succ (by decide) ?_
    rw [tick_lookup, hhit, if_pos rfl]
    exact returnsAfter_access h
  | false =>
    have hresident : makeResident s (Instr.fields i) = _ := makeResident_miss s hhit
    simp only [lookupRows, Bool.false_eq_true, if_false, executed, hresident, hhit, missLine]
    cases hwrites : needsWriteBack s (Instr.fields i).index with
    | true =>
      simp only [if_true]
      refine returnsAfter_succ (by decide) ?_
      rw [tick_lookup, hhit, if_neg (by decide), hwrites, if_pos rfl]
      refine returnsAfter_succ (by decide) ?_
      rw [tick_writeback]
      refine returnsAfter_succ (by decide) ?_
      rw [tick_fill]
      exact returnsAfter_access h
    | false =>
      simp only [Bool.false_eq_true, if_false]
      refine returnsAfter_succ (by decide) ?_
      rw [tick_lookup, hhit, if_neg (by decide), hwrites, if_neg (by decide)]
      refine returnsAfter_succ (by decide) ?_
      rw [tick_fill]
      exact returnsAfter_access h

/-- Row CHECK and those after it: fault entry, or the record's execution. -/
theorem returnsAfter_check (h : s.accepting = true) :
    ∃ n t, transitionCount i s = n + 1 ∧ n ≤ 6 ∧ exec i s = .next t ∧ ReturnsAfter i n (controllerAt i s .check hit v) t := by
  obtain ⟨-, hidle⟩ := (accepting_iff s).1 h
  cases hf : recordFault i with
  | some code =>
    refine ⟨1, _, by simp [transitionCount, hf], by decide, exec_of_fault h hf, returnsAfter_succ (by decide) ?_⟩
    rw [tick_check_fault _ _ _ hf]
    exact returnsAfter_zero rfl rfl
  | none =>
    refine ⟨lookupRows i s + 1, _, transitionCount_of_ok hf s, Nat.succ_le_succ (lookupRows_le i s), exec_of_ok h hf,
      returnsAfter_succ (by decide) ?_⟩
    rw [tick_check_ok _ _ _ hf]
    exact returnsAfter_lookup hidle

end

/-- Settles O48: row IDLE, then the rows of the record, which are the execution `exec` gives or fault entry. -/
theorem controllerTicksGiveTheStep : Obligations.ControllerTicksGiveTheStep := by
  unfold Obligations.ControllerTicksGiveTheStep
  intro i s h
  obtain ⟨n, t, hcount, hbound, hexec, hbefore, hstate, hidle, hrecord⟩ :=
    returnsAfter_check (i := i) (hit := false) (v := 0) h
  rw [← tick_present h] at hbefore hstate hrecord
  rw [hcount, hexec]
  refine ⟨Nat.succ_le_succ hbound, fun m hpos hm => ?_, ?_, hrecord, ?_⟩
  · obtain ⟨k, rfl⟩ := Nat.exists_eq_succ_of_ne_zero hpos.ne'
    exact hbefore k (Nat.lt_of_succ_lt_succ hm)
  · rw [ticks, hstate, hidle]
  · rw [ticks, hstate]

end Sys2Proof.Machine
end
